-- ==== Sys2Proof/Word.lean ====
section
/-! DEFINITION. The word types of the machine and its bit strings of instruction fields (R9, R10, R91). -/

namespace Sys2Proof

/-- An 8-bit unsigned value: a general register, a memory cell, a timer, an immediate `kk` (R10, R20). -/
abbrev Byte := BitVec 8

/-- A 16-bit unsigned value: an instruction word, PC, I, a stack entry (R10, R23, R25, R26). -/
abbrev Word := BitVec 16

/-- A 32-bit unsigned value: a word of the RandomSource (R200). -/
abbrev Word32 := BitVec 32

/-- A general register's number, the field `x` or `y` of an instruction (R91). -/
abbrev Reg := BitVec 4

/-- A 4-bit field: `op`, or the count `n` (R91). -/
abbrev Nibble := BitVec 4

/-- The 12-bit address field `nnn` (R91). -/
abbrev Addr12 := BitVec 12

end Sys2Proof
end

