-- ==== Sys2Proof/Syntax.lean ====
section
/-! DEFINITION. The 34 instructions, one constructor per row of spec/opcode_table.json (R94).
Each operand field has exactly the width its encoding gives it (R91), so no term carries an operand the encoding cannot hold. -/

namespace Sys2Proof

/-- An instruction with its fields. SHR and SHL carry the `y` field the word has, which they ignore (R160, R161). -/
inductive Instr where
  | cls
  | ret
  | jp (nnn : Addr12)
  | call (nnn : Addr12)
  | seImm (x : Reg) (kk : Byte)
  | sneImm (x : Reg) (kk : Byte)
  | seReg (x y : Reg)
  | sneReg (x y : Reg)
  | ldImm (x : Reg) (kk : Byte)
  | addImm (x : Reg) (kk : Byte)
  | ldReg (x y : Reg)
  | or (x y : Reg)
  | and (x y : Reg)
  | xor (x y : Reg)
  | addReg (x y : Reg)
  | sub (x y : Reg)
  | subn (x y : Reg)
  | shr (x y : Reg)
  | shl (x y : Reg)
  | ldI (nnn : Addr12)
  | jpV0 (nnn : Addr12)
  | rnd (x : Reg) (kk : Byte)
  | drw (x y : Reg) (n : Nibble)
  | skp (x : Reg)
  | sknp (x : Reg)
  | ldVxDt (x : Reg)
  | ldVxK (x : Reg)
  | ldDt (x : Reg)
  | ldSt (x : Reg)
  | addI (x : Reg)
  | ldF (x : Reg)
  | ldB (x : Reg)
  | ldStore (x : Reg)
  | ldLoad (x : Reg)
deriving DecidableEq, Repr

end Sys2Proof
end

