-- ==== Sys2Proof/WellFormed.lean ====
section
/-! DEFINITION. Which instruction words are well formed (R95 to R101), and the opcode table's rows (R94).
An `Instr` needs no check of its own: its fields have the encoding's widths. The checks are on words, one per group that has a minor opcode. -/

namespace Sys2Proof

/-- A row of the opcode table: the bits under `mask` must equal `value`. -/
structure OpcodeRow where
  mnemonic : String
  value : Word
  mask : Word
deriving DecidableEq, Repr

/-- The word has the row's fixed bits (R95). -/
def OpcodeRow.matches (row : OpcodeRow) (w : Word) : Bool := w &&& row.mask = row.value

/-- The opcode-table row of an instruction (R94). -/
def Instr.row : Instr → OpcodeRow
  | .cls => ⟨"CLS", 0x00E0#16, 0xFFFF#16⟩
  | .ret => ⟨"RET", 0x00EE#16, 0xFFFF#16⟩
  | .jp _ => ⟨"JP", 0x1000#16, 0xF000#16⟩
  | .call _ => ⟨"CALL", 0x2000#16, 0xF000#16⟩
  | .seImm _ _ => ⟨"SE_imm", 0x3000#16, 0xF000#16⟩
  | .sneImm _ _ => ⟨"SNE_imm", 0x4000#16, 0xF000#16⟩
  | .seReg _ _ => ⟨"SE_reg", 0x5000#16, 0xF00F#16⟩
  | .sneReg _ _ => ⟨"SNE_reg", 0x9000#16, 0xF00F#16⟩
  | .ldImm _ _ => ⟨"LD_imm", 0x6000#16, 0xF000#16⟩
  | .addImm _ _ => ⟨"ADD_imm", 0x7000#16, 0xF000#16⟩
  | .ldReg _ _ => ⟨"LD_reg", 0x8000#16, 0xF00F#16⟩
  | .or _ _ => ⟨"OR", 0x8001#16, 0xF00F#16⟩
  | .and _ _ => ⟨"AND", 0x8002#16, 0xF00F#16⟩
  | .xor _ _ => ⟨"XOR", 0x8003#16, 0xF00F#16⟩
  | .addReg _ _ => ⟨"ADD_reg", 0x8004#16, 0xF00F#16⟩
  | .sub _ _ => ⟨"SUB", 0x8005#16, 0xF00F#16⟩
  | .subn _ _ => ⟨"SUBN", 0x8007#16, 0xF00F#16⟩
  | .shr _ _ => ⟨"SHR", 0x8006#16, 0xF00F#16⟩
  | .shl _ _ => ⟨"SHL", 0x800E#16, 0xF00F#16⟩
  | .ldI _ => ⟨"LD_I", 0xA000#16, 0xF000#16⟩
  | .jpV0 _ => ⟨"JP_V0", 0xB000#16, 0xF000#16⟩
  | .rnd _ _ => ⟨"RND", 0xC000#16, 0xF000#16⟩
  | .drw _ _ _ => ⟨"DRW", 0xD000#16, 0xF000#16⟩
  | .skp _ => ⟨"SKP", 0xE09E#16, 0xF0FF#16⟩
  | .sknp _ => ⟨"SKNP", 0xE0A1#16, 0xF0FF#16⟩
  | .ldVxDt _ => ⟨"LD_Vx_DT", 0xF007#16, 0xF0FF#16⟩
  | .ldVxK _ => ⟨"LD_Vx_K", 0xF00A#16, 0xF0FF#16⟩
  | .ldDt _ => ⟨"LD_DT", 0xF015#16, 0xF0FF#16⟩
  | .ldSt _ => ⟨"LD_ST", 0xF018#16, 0xF0FF#16⟩
  | .addI _ => ⟨"ADD_I", 0xF01E#16, 0xF0FF#16⟩
  | .ldF _ => ⟨"LD_F", 0xF029#16, 0xF0FF#16⟩
  | .ldB _ => ⟨"LD_B", 0xF033#16, 0xF0FF#16⟩
  | .ldStore _ => ⟨"LD_store", 0xF055#16, 0xF0FF#16⟩
  | .ldLoad _ => ⟨"LD_load", 0xF065#16, 0xF0FF#16⟩

/-- The 34 rows, in the table's order (R94). -/
def opcodeRows : List OpcodeRow :=
  [⟨"CLS", 0x00E0#16, 0xFFFF#16⟩,
   ⟨"RET", 0x00EE#16, 0xFFFF#16⟩,
   ⟨"JP", 0x1000#16, 0xF000#16⟩,
   ⟨"CALL", 0x2000#16, 0xF000#16⟩,
   ⟨"SE_imm", 0x3000#16, 0xF000#16⟩,
   ⟨"SNE_imm", 0x4000#16, 0xF000#16⟩,
   ⟨"SE_reg", 0x5000#16, 0xF00F#16⟩,
   ⟨"SNE_reg", 0x9000#16, 0xF00F#16⟩,
   ⟨"LD_imm", 0x6000#16, 0xF000#16⟩,
   ⟨"ADD_imm", 0x7000#16, 0xF000#16⟩,
   ⟨"LD_reg", 0x8000#16, 0xF00F#16⟩,
   ⟨"OR", 0x8001#16, 0xF00F#16⟩] ++
  [⟨"AND", 0x8002#16, 0xF00F#16⟩,
   ⟨"XOR", 0x8003#16, 0xF00F#16⟩,
   ⟨"ADD_reg", 0x8004#16, 0xF00F#16⟩,
   ⟨"SUB", 0x8005#16, 0xF00F#16⟩,
   ⟨"SUBN", 0x8007#16, 0xF00F#16⟩,
   ⟨"SHR", 0x8006#16, 0xF00F#16⟩,
   ⟨"SHL", 0x800E#16, 0xF00F#16⟩,
   ⟨"LD_I", 0xA000#16, 0xF000#16⟩,
   ⟨"JP_V0", 0xB000#16, 0xF000#16⟩,
   ⟨"RND", 0xC000#16, 0xF000#16⟩,
   ⟨"DRW", 0xD000#16, 0xF000#16⟩] ++
  [⟨"SKP", 0xE09E#16, 0xF0FF#16⟩,
   ⟨"SKNP", 0xE0A1#16, 0xF0FF#16⟩,
   ⟨"LD_Vx_DT", 0xF007#16, 0xF0FF#16⟩,
   ⟨"LD_Vx_K", 0xF00A#16, 0xF0FF#16⟩,
   ⟨"LD_DT", 0xF015#16, 0xF0FF#16⟩,
   ⟨"LD_ST", 0xF018#16, 0xF0FF#16⟩,
   ⟨"ADD_I", 0xF01E#16, 0xF0FF#16⟩,
   ⟨"LD_F", 0xF029#16, 0xF0FF#16⟩,
   ⟨"LD_B", 0xF033#16, 0xF0FF#16⟩,
   ⟨"LD_store", 0xF055#16, 0xF0FF#16⟩,
   ⟨"LD_load", 0xF065#16, 0xF0FF#16⟩]

/-- The first nibble of a word (R91). -/
def majorOpcode (w : Word) : Nibble := w.extractLsb' 12 4

/-- Group 0 holds only 0x00E0 and 0x00EE (R96). -/
def group0Ok (w : Word) : Bool := w = 0x00E0#16 || w = 0x00EE#16

/-- Groups 5 and 9 need the last nibble 0 (R97). -/
def groupCompareOk (w : Word) : Bool := w &&& 0x000F#16 = 0

/-- The minor opcodes of group 8 (R98). -/
def group8Ok (w : Word) : Bool :=
  [0x0#16, 0x1#16, 0x2#16, 0x3#16, 0x4#16, 0x5#16, 0x6#16, 0x7#16, 0xE#16].contains (w &&& 0x000F#16)

/-- The minor opcodes of group E (R99). -/
def groupEOk (w : Word) : Bool := [0x9E#16, 0xA1#16].contains (w &&& 0x00FF#16)

/-- The minor opcodes of group F (R100). -/
def groupFOk (w : Word) : Bool :=
  [0x07#16, 0x0A#16, 0x15#16, 0x18#16, 0x1E#16, 0x29#16, 0x33#16, 0x55#16, 0x65#16].contains
    (w &&& 0x00FF#16)

/-- The word is one the instruction set recognizes; groups without a minor opcode take every word (R96 to R101). -/
def wellFormedWord (w : Word) : Bool :=
  match (majorOpcode w).toNat with
  | 0 => group0Ok w
  | 5 => groupCompareOk w
  | 8 => group8Ok w
  | 9 => groupCompareOk w
  | 14 => groupEOk w
  | 15 => groupFOk w
  | _ => true

end Sys2Proof
end

