-- ==== Sys2Proof/Decode.lean ====
section
/-! DEFINITION. The decoder, total on any bytes and rejecting by name (R62, R90 to R105), and the encoder written from the same table (R94). -/

namespace Sys2Proof

/-! ### Fields of an instruction word (R91) -/

/-- `op`, bits 15..12. -/
def fieldOp (w : Word) : Nibble := w.extractLsb' 12 4

/-- `x`, bits 11..8. -/
def fieldX (w : Word) : Reg := w.extractLsb' 8 4

/-- `y`, bits 7..4. -/
def fieldY (w : Word) : Reg := w.extractLsb' 4 4

/-- `n`, bits 3..0. -/
def fieldN (w : Word) : Nibble := w.extractLsb' 0 4

/-- `kk`, bits 7..0. -/
def fieldKk (w : Word) : Byte := w.extractLsb' 0 8

/-- `nnn`, bits 11..0. -/
def fieldNnn (w : Word) : Addr12 := w.extractLsb' 0 12

/-! ### Decoding -/

/-- Group 0 (R96). -/
def decodeGroup0 (w : Word) : Option Instr :=
  if w = 0x00E0#16 then some .cls
  else if w = 0x00EE#16 then some .ret
  else none

/-- Group 8, by its minor opcode `n` (R98). -/
def decodeGroup8 (x y : Reg) (n : Nibble) : Option Instr :=
  match n.toNat with
  | 0x0 => some (.ldReg x y)
  | 0x1 => some (.or x y)
  | 0x2 => some (.and x y)
  | 0x3 => some (.xor x y)
  | 0x4 => some (.addReg x y)
  | 0x5 => some (.sub x y)
  | 0x6 => some (.shr x y)
  | 0x7 => some (.subn x y)
  | 0xE => some (.shl x y)
  | _ => none

/-- Group E, by its minor opcode `kk` (R99). -/
def decodeGroupE (x : Reg) (kk : Byte) : Option Instr :=
  if kk = 0x9E#8 then some (.skp x)
  else if kk = 0xA1#8 then some (.sknp x)
  else none

/-- Group F, by its minor opcode `kk` (R100). -/
def decodeGroupF (x : Reg) (kk : Byte) : Option Instr :=
  if kk = 0x07#8 then some (.ldVxDt x)
  else if kk = 0x0A#8 then some (.ldVxK x)
  else if kk = 0x15#8 then some (.ldDt x)
  else if kk = 0x18#8 then some (.ldSt x)
  else if kk = 0x1E#8 then some (.addI x)
  else if kk = 0x29#8 then some (.ldF x)
  else if kk = 0x33#8 then some (.ldB x)
  else if kk = 0x55#8 then some (.ldStore x)
  else if kk = 0x65#8 then some (.ldLoad x)
  else none

/-- The instruction an instruction word stands for; `none` for the unimplemented words (R94, R95, R104). -/
def decodeWord (w : Word) : Option Instr :=
  match (fieldOp w).toNat with
  | 0x0 => decodeGroup0 w
  | 0x1 => some (.jp (fieldNnn w))
  | 0x2 => some (.call (fieldNnn w))
  | 0x3 => some (.seImm (fieldX w) (fieldKk w))
  | 0x4 => some (.sneImm (fieldX w) (fieldKk w))
  | 0x5 => if fieldN w = 0 then some (.seReg (fieldX w) (fieldY w)) else none
  | 0x6 => some (.ldImm (fieldX w) (fieldKk w))
  | 0x7 => some (.addImm (fieldX w) (fieldKk w))
  | 0x8 => decodeGroup8 (fieldX w) (fieldY w) (fieldN w)
  | 0x9 => if fieldN w = 0 then some (.sneReg (fieldX w) (fieldY w)) else none
  | 0xA => some (.ldI (fieldNnn w))
  | 0xB => some (.jpV0 (fieldNnn w))
  | 0xC => some (.rnd (fieldX w) (fieldKk w))
  | 0xD => some (.drw (fieldX w) (fieldY w) (fieldN w))
  | 0xE => decodeGroupE (fieldX w) (fieldKk w)
  | 0xF => decodeGroupF (fieldX w) (fieldKk w)
  | _ => none

/-- The word two consecutive bytes make: the byte at the lower address is the high byte (R62). -/
def wordOfBytes (high low : Byte) : Word := high ++ low

/-- Why bytes are no instruction. -/
inductive DecodeError where
  /-- Fewer than two bytes: no instruction word (R90). -/
  | truncated
  /-- The word matches no pattern of the opcode map (R104). -/
  | unimplemented (w : Word)
deriving DecidableEq, Repr

/-- Decode the instruction at the head of a byte string; what follows it is returned. Every instruction is two bytes (R90). -/
def decode : List Byte → Except DecodeError (Instr × List Byte)
  | high :: low :: rest =>
    match decodeWord (wordOfBytes high low) with
    | some i => .ok (i, rest)
    | none => .error (.unimplemented (wordOfBytes high low))
  | _ => .error .truncated

/-! ### Encoding -/

/-- A word of four nibbles, the major opcode first (R91). -/
def nibbles (op x y n : Nibble) : Word := op ++ x ++ y ++ n

/-- A word of a major opcode, a register and an 8-bit field (R91). -/
def nibbleByte (op x : Nibble) (kk : Byte) : Word := op ++ x ++ kk

/-- A word of a major opcode and a 12-bit field (R91). -/
def nibbleAddr (op : Nibble) (nnn : Addr12) : Word := op ++ nnn

/-- The word of an instruction (R94). -/
def encode : Instr → Word
  | .cls => 0x00E0#16
  | .ret => 0x00EE#16
  | .jp nnn => nibbleAddr 0x1 nnn
  | .call nnn => nibbleAddr 0x2 nnn
  | .seImm x kk => nibbleByte 0x3 x kk
  | .sneImm x kk => nibbleByte 0x4 x kk
  | .seReg x y => nibbles 0x5 x y 0x0
  | .sneReg x y => nibbles 0x9 x y 0x0
  | .ldImm x kk => nibbleByte 0x6 x kk
  | .addImm x kk => nibbleByte 0x7 x kk
  | .ldReg x y => nibbles 0x8 x y 0x0
  | .or x y => nibbles 0x8 x y 0x1
  | .and x y => nibbles 0x8 x y 0x2
  | .xor x y => nibbles 0x8 x y 0x3
  | .addReg x y => nibbles 0x8 x y 0x4
  | .sub x y => nibbles 0x8 x y 0x5
  | .subn x y => nibbles 0x8 x y 0x7
  | .shr x y => nibbles 0x8 x y 0x6
  | .shl x y => nibbles 0x8 x y 0xE
  | .ldI nnn => nibbleAddr 0xA nnn
  | .jpV0 nnn => nibbleAddr 0xB nnn
  | .rnd x kk => nibbleByte 0xC x kk
  | .drw x y n => nibbles 0xD x y n
  | .skp x => nibbleByte 0xE x 0x9E
  | .sknp x => nibbleByte 0xE x 0xA1
  | .ldVxDt x => nibbleByte 0xF x 0x07
  | .ldVxK x => nibbleByte 0xF x 0x0A
  | .ldDt x => nibbleByte 0xF x 0x15
  | .ldSt x => nibbleByte 0xF x 0x18
  | .addI x => nibbleByte 0xF x 0x1E
  | .ldF x => nibbleByte 0xF x 0x29
  | .ldB x => nibbleByte 0xF x 0x33
  | .ldStore x => nibbleByte 0xF x 0x55
  | .ldLoad x => nibbleByte 0xF x 0x65

/-- The high byte of a word, the one at the lower address (R62). -/
def highByte (w : Word) : Byte := w.extractLsb' 8 8

/-- The low byte of a word, the one at the higher address (R62). -/
def lowByte (w : Word) : Byte := w.extractLsb' 0 8

/-- The two bytes of an instruction as memory holds them (R62). -/
def encodeBytes (i : Instr) : List Byte := [highByte (encode i), lowByte (encode i)]

/-- The one word of an instruction whose first `nbits` bits are `w` and whose other bits are 0, as spec/opcode_table.json numbers them. -/
def tableWord (nbits w : Nat) : Word := BitVec.ofNat 16 (w % 2 ^ nbits)

/-- What the decoder reads from a table row's word, laid out in memory order. -/
def decodeTableWord (nbits w : Nat) : Option Instr :=
  match decode [highByte (tableWord nbits w), lowByte (tableWord nbits w)] with
  | .ok (i, _) => some i
  | .error _ => none

end Sys2Proof
end

