-- ==== Sys2Proof/Config.lean ====
section
/-! DEFINITION. The fixed sizes of the block (R8) and the one parameter the spec leaves OPEN, as an uninterpreted constant. -/

namespace Sys2Proof.Config

/-- MEM_SIZE: the number of memory cells (R8, R60). -/
abbrev memSize : Nat := 4096

/-- PROG_BASE: where a cartridge is loaded (R8, R65). -/
abbrev progBase : Nat := 0x200

/-- DEFAULT_SEED (R8, R200, D23): the spec gives no value, so nothing here gives one either.
A claim about `State.reset` holds for every seed (log entry 4). -/
opaque defaultSeed : Word32

end Sys2Proof.Config
end

