-- ==== Sys2Proof/Machine/Framebuffer.lean ====
section
/-! DEFINITION. Framebuffer: the 64 by 32 grid, `clear`, the XOR sprite blitter with collision, `snapshot` (R31, R220 to R227). -/

namespace Sys2Proof.Machine

/-- The grid: 32 rows of 64 cells, `FB[r][c]` (R31, R220). -/
abbrev Framebuffer := Vector (Vector Bool 64) 32

/-- `clear()`: every cell off (R221). -/
def Framebuffer.clear : Framebuffer := Vector.replicate 32 (Vector.replicate 64 false)

/-- The cell `FB[r][c]` (R31). -/
def Framebuffer.pixel (fb : Framebuffer) (r : Fin 32) (c : Fin 64) : Bool := fb[r.val][c.val]

/-- `FB[r][c] <- b` (R31). -/
def Framebuffer.setPixel (fb : Framebuffer) (r : Fin 32) (c : Fin 64) (b : Bool) : Framebuffer :=
  fb.set r.val (fb[r.val].set c.val b)

/-- Row `(y + j) mod 32` (R223). -/
def wrapRow (y j : Nat) : Fin 32 := ⟨(y + j) % 32, Nat.mod_lt _ (by decide)⟩

/-- Column `(x + i) mod 64` (R223). -/
def wrapColumn (x i : Nat) : Fin 64 := ⟨(x + i) % 64, Nat.mod_lt _ (by decide)⟩

/-- The pixel of a sprite byte at column offset `i`, most-significant bit first (R224). -/
def spriteBit (b : Byte) (i : Nat) : Bool := b.getLsbD (7 - i)

/-- Draw one set sprite bit: the collision is read from the cell before it is flipped (R223, R225). -/
def blitCell (acc : Framebuffer × Bool) (r : Fin 32) (c : Fin 64) : Framebuffer × Bool :=
  (acc.1.setPixel r c (!acc.1.pixel r c), acc.2 || acc.1.pixel r c)

/-- Draw the sprite byte of row offset `j`, columns 0 to 7; bits that are 0 touch nothing (R223). -/
def blitByte (x y j : Nat) (b : Byte) (acc : Framebuffer × Bool) : Framebuffer × Bool :=
  (List.range 8).foldl
    (fun acc i => if spriteBit b i then blitCell acc (wrapRow y j) (wrapColumn x i) else acc) acc

/-- Draw the sprite bytes of row offsets `j`, `j+1`, … (R223). -/
def blitRows (x y j : Nat) : List Byte → Framebuffer × Bool → Framebuffer × Bool
  | [], acc => acc
  | b :: rest, acc => blitRows x y (j + 1) rest (blitByte x y j b acc)

/-- `drawSprite(x, y, spriteBytes)`: the new grid and the collision (R223). -/
def Framebuffer.drawSprite (fb : Framebuffer) (x y : Byte) (sprite : List Byte) :
    Framebuffer × Bool :=
  blitRows x.toNat y.toNat 0 sprite (fb, false)

/-- `snapshot()`: the 2048 cells, row-major (R227). -/
def Framebuffer.snapshot (fb : Framebuffer) : List Bool := fb.toList.flatMap Vector.toList

end Sys2Proof.Machine
end

