-- ==== Sys2Proof/Machine/Parameters.lean ====
section
/-! DEFINITION. The implementation parameters the spec gives a default (R8), at that default: the font (R30), the generator's constants (R200), the key table (R279). -/

namespace Sys2Proof.Machine

/-- FONT: the 80 glyph bytes of addresses 0..79, glyph d at d*5 (R30, D24; log entry 6). -/
def font : List Byte :=
  [0xF0, 0x90, 0x90, 0x90, 0xF0, 0x20, 0x60, 0x20, 0x20, 0x70,
   0xF0, 0x10, 0xF0, 0x80, 0xF0, 0xF0, 0x10, 0xF0, 0x10, 0xF0] ++
  [0x90, 0x90, 0xF0, 0x10, 0x10, 0xF0, 0x80, 0xF0, 0x10, 0xF0,
   0xF0, 0x80, 0xF0, 0x90, 0xF0, 0xF0, 0x10, 0x20, 0x40, 0x40] ++
  [0xF0, 0x90, 0xF0, 0x90, 0xF0, 0xF0, 0x90, 0xF0, 0x10, 0xF0,
   0xF0, 0x90, 0xF0, 0x90, 0x90, 0xE0, 0x90, 0xE0, 0x90, 0xE0] ++
  [0xF0, 0x80, 0x80, 0x80, 0xF0, 0xE0, 0x90, 0x90, 0x90, 0xE0,
   0xF0, 0x80, 0xF0, 0x80, 0xF0, 0xF0, 0x80, 0xF0, 0x80, 0x80]

/-- GLYPH_BYTES: the size of one glyph (R8, R29). -/
def glyphBytes : Nat := 5

/-- CMWC_A, the multiplier (R200). -/
def cmwcMultiplier : Nat := 18782

/-- CMWC_C0, the carry after seeding (R200). -/
def cmwcInitialCarry : Word32 := 362436

/-- CMWC_PHI, the odd constant of the seeding (R200). -/
def cmwcPhi : Word32 := 0x9E3779B9

/-- CMWC_R, the reflection constant (R200). -/
def cmwcReflect : Word32 := 0xFFFFFFFE

/-- CMWC_I0, the cursor after seeding: the first draw uses `Q[0]` (R200). -/
def cmwcInitialCursor : Fin 4096 := 4095

/-- A symbolic-key table: key identifiers with their key index (R279). -/
abbrev KeyMap := List (Char × Fin 16)

/-- The key index of an identifier, if it is mapped (R278, R279). -/
def KeyMap.lookup : KeyMap → Char → Option (Fin 16)
  | [], _ => none
  | (label, index) :: rest, id => if label = id then some index else KeyMap.lookup rest id

/-- KEYMAP's conventional default (R279, D25; log entry 10). -/
def defaultKeyMap : KeyMap :=
  [('1', 0x1), ('2', 0x2), ('3', 0x3), ('4', 0xC),
   ('Q', 0x4), ('W', 0x5), ('E', 0x6), ('R', 0xD),
   ('A', 0x7), ('S', 0x8), ('D', 0x9), ('F', 0xE),
   ('Z', 0xA), ('X', 0x0), ('C', 0xB), ('V', 0xF)]

end Sys2Proof.Machine
end

