-- ==== Sys2Proof/Machine/Random.lean ====
section
/-! DEFINITION. RandomSource: the complementary-multiply-with-carry generator, its seeding and its draws (R200 to R204). -/

namespace Sys2Proof.Machine

/-- RandomSource state: the table `Q`, the carry `c`, the cursor `i` (R33, R200). -/
structure RandomSource where
  q : Vector Word32 4096
  c : Word32
  i : Fin 4096
deriving DecidableEq, Repr

/-- The words `Q[k]`, `Q[k+1]`, … of the seeding (`count` of them), from the three words before `Q[k]` (R201).
The word between the newest two, `Q[k-1]`, takes part only from the next one on. -/
def seedTail (q3 q2 q1 : Word32) (k : Nat) : Nat → List Word32
  | 0 => []
  | count + 1 =>
    let w := q3 ^^^ q2 ^^^ cmwcPhi ^^^ BitVec.ofNat 32 k
    w :: seedTail q2 q1 w (k + 1) count

/-- The whole seeded table: three words by addition, the rest by XOR (R201). -/
def seedWords (seed : Word32) : List Word32 :=
  seed :: (seed + cmwcPhi) :: (seed + cmwcPhi + cmwcPhi) ::
    seedTail seed (seed + cmwcPhi) (seed + cmwcPhi + cmwcPhi) 3 4093

theorem seedTail_length (q3 q2 q1 : Word32) (k count : Nat) :
    (seedTail q3 q2 q1 k count).length = count := by
  induction count generalizing q3 q2 q1 k with
  | zero => rfl
  | succ count ih => simp [seedTail, ih]

theorem seedWords_length (seed : Word32) : (seedWords seed).toArray.size = 4096 := by
  simp [seedWords, seedTail_length]

/-- `seed_rng(seed)` (R201). -/
def seedRng (seed : Word32) : RandomSource where
  q := ⟨(seedWords seed).toArray, seedWords_length seed⟩
  c := cmwcInitialCarry
  i := cmwcInitialCursor

/-- The product of a draw, an exact integer below 2^64: `A * Q[i] + c` (R202). -/
def drawProduct (qi c : Word32) : Nat := cmwcMultiplier * qi.toNat + c.toNat

/-- The low word and the new carry of a draw, after the carry correction (R202). -/
def drawCarry (t : Nat) : Word32 × Word32 :=
  let c := BitVec.ofNat 32 (t / 2 ^ 32)
  let x := BitVec.ofNat 32 t + c
  if x < c then (x + 1, c + 1) else (x, c)

/-- `next()`: the advanced generator and the word drawn (R202). -/
def RandomSource.next (r : RandomSource) : RandomSource × Word32 :=
  let i := r.i + 1
  let xc := drawCarry (drawProduct r.q[i.val] r.c)
  let word := cmwcReflect - xc.1
  ({ q := r.q.set i.val word, c := xc.2, i := i }, word)

/-- `random_byte()`: the low 8 bits of one draw (R204). -/
def RandomSource.randomByte (r : RandomSource) : RandomSource × Byte :=
  (r.next.1, r.next.2.setWidth 8)

end Sys2Proof.Machine
end

