-- ==== Sys2Proof/Machine/State.lean ====
section
/-! DEFINITION. The machine's state, all of it (10_state.md), as plain data; its faults and refusals; the state after construction. -/

namespace Sys2Proof.Machine

/-- A step fault with its recorded info (R261, codes 1 to 5). The machine stops with it; that is safe, for the spec says the condition is fatal. -/
inductive Fault where
  /-- Code 1. Raised by every step at dispatch, for a word that matches no row; info: the word and the address it was fetched from (R262). Safe. -/
  | unimplementedInstruction (word : Word) (address : Word)
  /-- Code 2. Raised by CALL with SP = 16; info: PC at the fault, the address of the CALL + 2 (R263). Safe. -/
  | stackOverflow (pc : Word)
  /-- Code 3. Raised by RET with SP = 0; info: PC at the fault, the address of the RET + 2 (R264). Safe. -/
  | stackUnderflow (pc : Word)
  /-- Code 4. Raised by the fetch, DRW, LD B, LD [I] and LD Vx,[I]; info: the first address of the access that is 4096 or more (R66, R265). Safe. -/
  | memoryOutOfRange (address : Nat)
  /-- Code 5. Raised by SKP and SKNP with Vx above 15; info: the index (R266). Safe. -/
  | keyIndexOutOfRange (index : Byte)
deriving DecidableEq, Repr

/-- Why the model gives an instruction no meaning. -/
inductive Refusal where
  /-- An instruction that has no meaning yet, rejected by name in `exec`'s arm. Safe. No arm does so now. -/
  | notModelled (mnemonic : String)
deriving DecidableEq, Repr

/-- Main memory: the cells that differ from their reset contents, in rising address order (R29; log entry 12). -/
abbrev Memory := List Host.Cell

/-- The complete state of the block (10_state.md, R35). -/
structure State where
  /-- `MEM`, 4096 bytes (R29). -/
  mem : Memory
  /-- `V0` to `VF` (R20, R21). -/
  v : Vector Byte 16
  /-- `I` (R25). -/
  i : Word
  /-- `PC` (R23). -/
  pc : Word
  /-- `STACK[0..15]` (R26). -/
  stack : Vector Word 16
  /-- `SP`, the next free slot, 0 to 16 (R26). -/
  sp : Fin 17
  /-- `DT` (R28). -/
  dt : Byte
  /-- `ST` (R28). -/
  st : Byte
  /-- `FB` (R31). -/
  fb : Framebuffer
  /-- `KEY[0..15]`, set by the host only (R32). -/
  keys : Vector Bool 16
  /-- `RNG` (R33). -/
  rng : RandomSource
  /-- `FAULT`, the fault latch (R34). -/
  fault : Option Fault
deriving DecidableEq, Repr

/-- What a step or an execute phase answers. -/
abbrev Result := Host.Outcome State Fault Refusal

/-- The state after `new()` (R39, R290). No memory cell differs from its reset contents, so none is listed. -/
def State.reset : State where
  mem := []
  v := Vector.replicate 16 0
  i := 0
  pc := 0x200
  stack := Vector.replicate 16 0
  sp := 0
  dt := 0
  st := 0
  fb := Framebuffer.clear
  keys := Vector.replicate 16 false
  rng := seedRng Config.defaultSeed
  fault := none

end Sys2Proof.Machine
end

