-- ==== Sys2Proof/Machine/Ops.lean ====
section
/-! DEFINITION. The named operations over memory, registers, stack and keys, raising a fault and the latch beside it, and the step's prologue. -/

namespace Sys2Proof.Machine

/-! ### Memory cells -/

/-- What a cell reads as when memory does not list it: its reset contents, FONT in 0..79 and 0 above (R39). -/
def Memory.blank (a : Nat) : Byte := font.getD a 0

/-- The byte at an address. -/
def Memory.read : Memory → Nat → Byte
  | [], a => Memory.blank a
  | (a', b') :: rest, a => if a = a' then b' else Memory.read rest a

/-- Store a byte, keeping the canonical form: a byte equal to the reset contents is not listed. -/
def Memory.write : Memory → Nat → Byte → Memory
  | [], a, b => if b = Memory.blank a then [] else [(a, b)]
  | (a', b') :: rest, a, b =>
    if a < a' then
      if b = Memory.blank a then (a', b') :: rest else (a, b) :: (a', b') :: rest
    else if a = a' then
      if b = Memory.blank a then rest else (a, b) :: rest
    else (a', b') :: Memory.write rest a b

/-- The canonical form from address `lo` up: addresses rising and inside the address space, no byte equal to the reset contents. -/
def Memory.wfFrom (lo : Nat) : Memory → Bool
  | [] => true
  | (a, b) :: rest =>
    decide (lo ≤ a) && decide (a < Config.memSize) && decide (b ≠ Memory.blank a) &&
      Memory.wfFrom (a + 1) rest

/-- The canonical form of memory: equal memories are equal lists. -/
def Memory.wf (m : Memory) : Bool := Memory.wfFrom 0 m

/-- The `n` bytes at `a`, `a+1`, … (R12). -/
def Memory.readBytes (m : Memory) (a : Nat) : Nat → List Byte
  | 0 => []
  | n + 1 => Memory.read m a :: Memory.readBytes m (a + 1) n

/-- Store bytes at `a`, `a+1`, …, in ascending order (R12, R63). -/
def Memory.writeBytes (m : Memory) (a : Nat) : List Byte → Memory
  | [] => m
  | b :: rest => Memory.writeBytes (Memory.write m a b) (a + 1) rest

/-! ### Raising a fault (R13, R260)

A fault saves no register, changes no mode and goes to no handler (R272): its whole effect on the state is the latch.
There is no return from one (R273): only the host's `reset()` clears the latch (HostOps.lean). -/

/-- `raise F(info)`: end the step with the fault (R13). -/
def raise (f : Fault) : Result := .fault f

/-- The state a faulting step leaves: FAULT is latched, KEY is as it was, every other element is any value,
here whatever `unspecified` holds (R117, R260, U7; log entry 1). -/
def State.latch (s : State) (f : Fault) (unspecified : State) : State :=
  { unspecified with fault := some f, keys := s.keys }

/-! ### Register and field updates -/

/-- `V[x]` (R11, R20). -/
def State.reg (s : State) (x : Reg) : Byte := s.v[x.toNat]

/-- `V[x] <- b` (R11, R20). -/
def State.setReg (s : State) (x : Reg) (b : Byte) : State := { s with v := s.v.set x.toNat b }

/-- `PC <- target` (R11, R23). -/
def State.setPc (s : State) (target : Word) : State := { s with pc := target }

/-- `I <- a` (R25). -/
def State.setI (s : State) (a : Word) : State := { s with i := a }

/-- `DT <- b` (R28). -/
def State.setDt (s : State) (b : Byte) : State := { s with dt := b }

/-- `ST <- b` (R28). -/
def State.setSt (s : State) (b : Byte) : State := { s with st := b }

/-- Replace the registers. -/
def State.setV (s : State) (v : Vector Byte 16) : State := { s with v := v }

/-- Replace the memory. -/
def State.setMem (s : State) (m : Memory) : State := { s with mem := m }

/-- Replace the framebuffer. -/
def State.setFb (s : State) (fb : Framebuffer) : State := { s with fb := fb }

/-- Replace the generator. -/
def State.setRng (s : State) (rng : RandomSource) : State := { s with rng := rng }

/-- Replace the stack and its pointer. -/
def State.setStack (s : State) (stack : Vector Word 16) (sp : Fin 17) : State :=
  { s with stack := stack, sp := sp }

/-- `V[k] <- b`, `V[k+1] <- b'`, … for a list of bytes (R185). -/
def setRegsFrom (v : Vector Byte 16) (k : Nat) : List Byte → Vector Byte 16
  | [] => v
  | b :: rest => setRegsFrom (v.setIfInBounds k b) (k + 1) rest

/-! ### Memory accesses of a step (R12, R66) -/

/-- The first address of an access at `a` that is no cell, given that there is one (R66, R265). -/
def firstOutOfRange (a : Nat) : Nat := max a Config.memSize

/-- Every address of the access is a cell; an access of no bytes checks nothing (R12, R66). -/
def accessOk (a n : Nat) : Bool := n = 0 || a + n ≤ Config.memSize

/-- `MemRead(addr, n)`, then go on with the bytes read (R12, R66). -/
def State.withRead (s : State) (a n : Nat) (k : List Byte → Result) : Result :=
  if accessOk a n then k (s.mem.readBytes a n) else raise (.memoryOutOfRange (firstOutOfRange a))

/-- `MemWrite(addr, n, bytes)` (R12, R66). -/
def State.memWrite (s : State) (a : Nat) (bytes : List Byte) : Result :=
  if accessOk a bytes.length then .next (s.setMem (s.mem.writeBytes a bytes))
  else raise (.memoryOutOfRange (firstOutOfRange a))

/-! ### Stack (R27) -/

/-- `Push(v)`, then go on (R27). -/
def State.push (s : State) (w : Word) (k : State → Result) : Result :=
  if h : s.sp.val < 16 then
    k (s.setStack (s.stack.set s.sp.val w) ⟨s.sp.val + 1, by omega⟩)
  else raise (.stackOverflow s.pc)

/-- `Pop()`, then go on with the popped value; the slot keeps its value (R27, D7). -/
def State.pop (s : State) (k : State → Word → Result) : Result :=
  if h : s.sp.val = 0 then raise (.stackUnderflow s.pc)
  else k (s.setStack s.stack ⟨s.sp.val - 1, by omega⟩) (s.stack[s.sp.val - 1]'(by omega))

/-! ### Keys (R240, R241) -/

/-- `isPressed(index)` for an index 0..15 (R240). -/
def State.isPressed (s : State) (k : Nat) : Bool := s.keys[k]?.getD false

/-- `firstPressedIndex()`: the lowest pressed index (R241). -/
def State.firstPressedIndex (s : State) : Option Nat := (List.range 16).find? s.isPressed

/-! ### The step's parts before the execute phase -/

/-- `if T > 0: T <- T - 1` (R114). -/
def decay (t : Byte) : Byte := if 0 < t then t - 1 else t

/-- Fetch: the word at PC, or the fetch fault (R111). -/
def State.fetch (s : State) : Except Fault Word :=
  if s.pc.toNat + 1 < Config.memSize then
    .ok (wordOfBytes (s.mem.read s.pc.toNat) (s.mem.read (s.pc.toNat + 1)))
  else .error (.memoryOutOfRange (firstOutOfRange s.pc.toNat))

/-- PC advance and timer decay (R113, R114). -/
def State.prologue (s : State) : State :=
  ((s.setPc (s.pc + 2)).setDt (decay s.dt)).setSt (decay s.st)

/-- What a step runs once the word is fetched: the prologue, then the decoded instruction, or the fault for an unimplemented word (R113 to R115). -/
def State.dispatch (s : State) (w : Word) (run : Instr → State → Result) : Result :=
  match decodeWord w with
  | some i => run i s.prologue
  | none => raise (.unimplementedInstruction w s.pc)

/-! ### Outputs of a completed step (R116, R227, R249) -/

/-- `toneRequested`: ST > 0 (R249). -/
def State.toneRequested (s : State) : Bool := decide (0 < s.st)

/-- The framebuffer output (R116, R227). -/
def State.snapshot (s : State) : List Bool := s.fb.snapshot

/-! ### Placing an instruction for the next fetch -/

/-- Where the next fetch can find two bytes: PC, or the program origin when no two cells lie at PC. -/
def State.fetchPlace (s : State) : Word :=
  if s.pc.toNat + 1 < Config.memSize then s.pc else BitVec.ofNat 16 Config.progBase

/-- The state whose next step fetches and runs the word: its bytes at PC, no latched fault (log entry 14). -/
def State.placeWord (s : State) (w : Word) : State :=
  { s with
    pc := s.fetchPlace
    mem := s.mem.writeBytes s.fetchPlace.toNat [highByte w, lowByte w]
    fault := none }

end Sys2Proof.Machine
end

