-- ==== Sys2Proof/Machine/Operands.lean ====
section
/-! DEFINITION. Operand forms: how an instruction's fields become values and addresses (R92, R93, R186), and the skip (R139). -/

namespace Sys2Proof.Machine

/-- `zext_16(nnn)` (R92). -/
def zextAddr (nnn : Addr12) : Word := nnn.setWidth 16

/-- `zext_16(v)` of a register value (R92). -/
def zextByte (b : Byte) : Word := b.setWidth 16

/-- The address operand through I: the base of an access, an exact integer (R186). -/
def State.indexAddress (s : State) : Nat := s.i.toNat

/-- How many registers V0..Vx are (R92). -/
def rangeCount (x : Reg) : Nat := x.toNat + 1

/-- The values of V0..Vx (R92, R184). -/
def State.regRange (s : State) (x : Reg) : List Byte := s.v.toList.take (rangeCount x)

/-- The address of the glyph for the low nibble of a value (R182, C2). -/
def glyphAddress (b : Byte) : Word := zextByte (b &&& 0x0F) * BitVec.ofNat 16 glyphBytes

/-- The hundreds, tens and units digits of a value (R183). -/
def bcdDigits (b : Byte) : List Byte :=
  [BitVec.ofNat 8 (b.toNat / 100), BitVec.ofNat 8 (b.toNat / 10 % 10), BitVec.ofNat 8 (b.toNat % 10)]

/-- Skip the next word when the condition holds: 2 more to PC (R139). -/
def State.skipIf (s : State) (condition : Bool) : State :=
  if condition then s.setPc (s.pc + 2) else s

/-- A key operand: go on with the key's flag, or the fault when the value is no key index (R240, R242, R266). -/
def State.withKey (s : State) (index : Byte) (k : Bool → Result) : Result :=
  if 15 < index.toNat then raise (.keyIndexOutOfRange index) else k (s.isPressed index.toNat)

end Sys2Proof.Machine
end

