-- ==== Sys2Proof/Machine/Flags.lean ====
section
/-! DEFINITION. Every flag computation (R37, R150): on exact integers, from the values captured at decode. -/

namespace Sys2Proof.Machine

/-- A flag's value in VF: exactly 0 or 1 (R37, R150). -/
def flagByte (b : Bool) : Byte := if b then 1 else 0

/-- Carry of ADD Vx,Vy: the exact sum is above 255 (R157). -/
def carryOut (a b : Byte) : Bool := decide (255 < a.toNat + b.toNat)

/-- The flag of `a - b`: set when `a > b`, strictly (R158, R159, C3). -/
def notBorrow (a b : Byte) : Bool := decide (b.toNat < a.toNat)

/-- The bit a right shift by one drops (R160). -/
def shiftedOutRight (a : Byte) : Bool := a.getLsbD 0

/-- The bit a left shift by one drops (R161, C6). -/
def shiftedOutLeft (a : Byte) : Bool := a.getLsbD 7

/-- The flag register's number, FLAG_REG (R8, R21). -/
def flagReg : Reg := 15

/-- `V[15] <- flag` (R21). -/
def State.setFlag (s : State) (flag : Bool) : State := s.setReg flagReg (flagByte flag)

/-- Write a result, then the flag: with x = 15 the flag survives (R164, VF_ORDER = flag_last). -/
def State.setResultFlag (s : State) (x : Reg) (result : Byte) (flag : Bool) : State :=
  (s.setReg x result).setFlag flag

end Sys2Proof.Machine
end

