-- ==== Sys2Proof/Machine/Alu.lean ====
section
/-! DEFINITION. Register moves and the 8-bit ALU (41_alu.md). -/

namespace Sys2Proof.Machine

/-- LD Vx, kk (R151). -/
def execLdImm (x : Reg) (kk : Byte) (s : State) : Result := .next (s.setReg x kk)

/-- ADD Vx, kk: wraps, no flag (R152). -/
def execAddImm (x : Reg) (kk : Byte) (s : State) : Result := .next (s.setReg x (s.reg x + kk))

/-- LD Vx, Vy (R153). -/
def execLdReg (x y : Reg) (s : State) : Result := .next (s.setReg x (s.reg y))

/-- OR Vx, Vy: VF is not written as a flag (R154, D12). -/
def execOr (x y : Reg) (s : State) : Result := .next (s.setReg x (s.reg x ||| s.reg y))

/-- AND Vx, Vy (R155, D12). -/
def execAnd (x y : Reg) (s : State) : Result := .next (s.setReg x (s.reg x &&& s.reg y))

/-- XOR Vx, Vy (R156, D12). -/
def execXor (x y : Reg) (s : State) : Result := .next (s.setReg x (s.reg x ^^^ s.reg y))

/-- ADD Vx, Vy (R157). -/
def execAddReg (x y : Reg) (s : State) : Result :=
  .next (s.setResultFlag x (s.reg x + s.reg y) (carryOut (s.reg x) (s.reg y)))

/-- SUB Vx, Vy (R158). -/
def execSub (x y : Reg) (s : State) : Result :=
  .next (s.setResultFlag x (s.reg x - s.reg y) (notBorrow (s.reg x) (s.reg y)))

/-- SUBN Vx, Vy (R159). -/
def execSubn (x y : Reg) (s : State) : Result :=
  .next (s.setResultFlag x (s.reg y - s.reg x) (notBorrow (s.reg y) (s.reg x)))

/-- SHR Vx: the shifted register is Vx, `y` is ignored (R160, SHIFT_SRC = x). -/
def execShr (x _y : Reg) (s : State) : Result :=
  .next (s.setResultFlag x (s.reg x >>> 1) (shiftedOutRight (s.reg x)))

/-- SHL Vx: the shifted register is Vx, `y` is ignored (R161, SHIFT_SRC = x). -/
def execShl (x _y : Reg) (s : State) : Result :=
  .next (s.setResultFlag x (s.reg x <<< 1) (shiftedOutLeft (s.reg x)))

end Sys2Proof.Machine
end

