-- ==== Sys2Proof/Machine/ControlFlow.lean ====
section
/-! DEFINITION. Control transfer (40_control_flow.md). On entry PC already holds the address of the next instruction (R113). -/

namespace Sys2Proof.Machine

/-- RET (R130). -/
def execRet (s : State) : Result := s.pop fun s target => .next (s.setPc target)

/-- JP nnn (R131). -/
def execJp (nnn : Addr12) (s : State) : Result := .next (s.setPc (zextAddr nnn))

/-- CALL nnn (R132). -/
def execCall (nnn : Addr12) (s : State) : Result :=
  s.push s.pc fun s => .next (s.setPc (zextAddr nnn))

/-- SE Vx, kk (R133). -/
def execSeImm (x : Reg) (kk : Byte) (s : State) : Result := .next (s.skipIf (s.reg x == kk))

/-- SNE Vx, kk (R134). -/
def execSneImm (x : Reg) (kk : Byte) (s : State) : Result := .next (s.skipIf (s.reg x != kk))

/-- SE Vx, Vy (R135). -/
def execSeReg (x y : Reg) (s : State) : Result := .next (s.skipIf (s.reg x == s.reg y))

/-- SNE Vx, Vy (R136). -/
def execSneReg (x y : Reg) (s : State) : Result := .next (s.skipIf (s.reg x != s.reg y))

/-- JP V0, nnn: the 16-bit sum, not masked (R137, D15). -/
def execJpV0 (nnn : Addr12) (s : State) : Result :=
  .next (s.setPc (zextAddr nnn + zextByte (s.reg 0)))

end Sys2Proof.Machine
end

