-- ==== Sys2Proof/Machine/Display.lean ====
section
/-! DEFINITION. CLS and DRW (44_display.md). -/

namespace Sys2Proof.Machine

/-- CLS (R222). -/
def execCls (s : State) : Result := .next (s.setFb Framebuffer.clear)

/-- Draw the sprite bytes at the coordinates and write the collision flag (R226). -/
def State.draw (s : State) (x y : Byte) (sprite : List Byte) : State :=
  (s.setFb (s.fb.drawSprite x y sprite).1).setFlag (s.fb.drawSprite x y sprite).2

/-- DRW Vx, Vy, n (R226). -/
def execDrw (x y : Reg) (n : Nibble) (s : State) : Result :=
  s.withRead s.indexAddress n.toNat fun sprite => .next (s.draw (s.reg x) (s.reg y) sprite)

end Sys2Proof.Machine
end

