-- ==== Sys2Proof/Machine/IndexMemory.lean ====
section
/-! DEFINITION. The index register and memory transfers (42_index_memory.md). No access changes I (R186, D13). -/

namespace Sys2Proof.Machine

/-- LD I, nnn (R180). -/
def execLdI (nnn : Addr12) (s : State) : Result := .next (s.setI (zextAddr nnn))

/-- ADD I, Vx: modulo 2^16, no flag (R181, I_ADD_OVERFLOW = wrap). -/
def execAddI (x : Reg) (s : State) : Result := .next (s.setI (s.i + zextByte (s.reg x)))

/-- LD F, Vx (R182). -/
def execLdF (x : Reg) (s : State) : Result := .next (s.setI (glyphAddress (s.reg x)))

/-- LD B, Vx (R183). -/
def execLdB (x : Reg) (s : State) : Result := s.memWrite s.indexAddress (bcdDigits (s.reg x))

/-- LD [I], Vx (R184). -/
def execLdStore (x : Reg) (s : State) : Result := s.memWrite s.indexAddress (s.regRange x)

/-- LD Vx, [I] (R185). -/
def execLdLoad (x : Reg) (s : State) : Result :=
  s.withRead s.indexAddress (rangeCount x) fun bytes => .next (s.setV (setRegsFrom s.v 0 bytes))

end Sys2Proof.Machine
end

