-- ==== Sys2Proof/Machine/KeysTimers.lean ====
section
/-! DEFINITION. Keys and timers (45_keys_timers.md). On entry the timers have already been decremented for this step (R114). -/

namespace Sys2Proof.Machine

/-- SKP Vx (R242). -/
def execSkp (x : Reg) (s : State) : Result := s.withKey (s.reg x) fun held => .next (s.skipIf held)

/-- SKNP Vx (R243). -/
def execSknp (x : Reg) (s : State) : Result := s.withKey (s.reg x) fun held => .next (s.skipIf !held)

/-- LD Vx, DT (R244). -/
def execLdVxDt (x : Reg) (s : State) : Result := .next (s.setReg x s.dt)

/-- LD Vx, K: with no key, PC goes back to this instruction (R245). -/
def execLdVxK (x : Reg) (s : State) : Result :=
  match s.firstPressedIndex with
  | none => .next (s.setPc (s.pc - 2))
  | some k => .next (s.setReg x (BitVec.ofNat 8 k))

/-- LD DT, Vx (R246). -/
def execLdDt (x : Reg) (s : State) : Result := .next (s.setDt (s.reg x))

/-- LD ST, Vx (R247). -/
def execLdSt (x : Reg) (s : State) : Result := .next (s.setSt (s.reg x))

end Sys2Proof.Machine
end

