-- ==== Sys2Proof/Machine/RandomInstr.lean ====
section
/-! DEFINITION. RND (43_random.md). -/

namespace Sys2Proof.Machine

/-- RND Vx, kk: one draw, masked; the generator advances whatever the mask (R205). -/
def execRnd (x : Reg) (kk : Byte) (s : State) : Result :=
  .next ((s.setRng s.rng.randomByte.1).setReg x (s.rng.randomByte.2 &&& kk))

end Sys2Proof.Machine
end

