-- ==== Sys2Proof/Machine/Step.lean ====
section
/-! DEFINITION. One step (R118), and placing an instruction where the next step fetches it. -/

namespace Sys2Proof.Machine

/-- `step()`: the latched fault, else fetch, prologue, decode and execute (R110 to R118).
`.next` is the spec's completed step, `.fault` its `Fault(kind, info)` (log entry 1). -/
def step (s : State) : Host.Outcome State Fault Refusal :=
  match s.fault with
  | some f => .fault f
  | none =>
    match s.fetch with
    | .error f => raise f
    | .ok w => s.dispatch w exec

/-- The state with an instruction's bits stored where the next step fetches (log entries 13 and 14). -/
def State.withFetchWord (s : State) (nbits w : Nat) : State := s.placeWord (tableWord nbits w)

end Sys2Proof.Machine
end

