-- ==== Sys2Proof/Machine/HostOps.lean ====
section
/-! DEFINITION. The block's host operations: `reset`, `load`, `keyDown`, `keyUp`, and `step` with its outputs and the fault latch (R260, R276 to R279, R290 to R294). -/

namespace Sys2Proof.Machine

/-- `reset()`: construction values, FAULT cleared, KEY as it was (R291). -/
def State.hostReset (s : State) : State := { State.reset with keys := s.keys }

/-- LOAD_MAX: the size of the program area (R8, R292). -/
def loadMax : Nat := Config.memSize - Config.progBase

/-- What `load` answers (R292). -/
inductive LoadResult where
  /-- The cartridge is copied. -/
  | ok (s : State)
  /-- Code 6, InsufficientMemory(length): nothing changed, FAULT not set (R267). -/
  | insufficientMemory (length : Nat)
deriving DecidableEq, Repr

/-- `load(bytes)`: copy to 0x200 upward, or refuse before anything changes (R292). -/
def State.load (s : State) (bytes : List Byte) : LoadResult :=
  if loadMax < bytes.length then .insufficientMemory bytes.length
  else .ok (s.setMem (s.mem.writeBytes Config.progBase bytes))

/-- Set or clear a key flag (R278). -/
def State.setKey (s : State) (k : Fin 16) (held : Bool) : State := { s with keys := s.keys.set k.val held }

/-- `keyDown(id)` under a key table; an unmapped identifier changes nothing (R278, R279). -/
def State.keyDown (s : State) (map : KeyMap) (id : Char) : State :=
  match map.lookup id with
  | some k => s.setKey k true
  | none => s

/-- `keyUp(id)` under a key table; an unmapped identifier changes nothing (R278, R279). -/
def State.keyUp (s : State) (map : KeyMap) (id : Char) : State :=
  match map.lookup id with
  | some k => s.setKey k false
  | none => s

/-- What `step()` returns to the host (R116, R260). -/
inductive StepResult where
  /-- A completed step's outputs (R116). -/
  | ok (framebuffer : List Bool) (toneRequested : Bool)
  /-- The fault, raised in this step or latched before it (R110, R260). -/
  | fault (f : Fault)
  /-- The model gave the instruction no meaning. No step answers so. -/
  | refused (r : Refusal)
deriving DecidableEq, Repr

/-- The state a step that reports the fault leaves: unchanged when the fault was latched already (R110),
else latched now, with `unspecified` for what the spec leaves open (R117). -/
def State.afterFault (s : State) (f : Fault) (unspecified : State) : State :=
  if s.fault.isSome then s else s.latch f unspecified

/-- `step()` as the host sees it: the state the block is left in and what is returned (R118, R260, R276).
`unspecified` stands for the values a fault leaves open; a claim holds for every one of them (log entry 1). -/
def State.hostStep (s unspecified : State) : State × StepResult :=
  match step s with
  | .next t => (t, .ok t.snapshot t.toneRequested)
  | .fault f => (s.afterFault f unspecified, .fault f)
  | .refused r => (s, .refused r)

/-- A fault's code (R261). -/
def Fault.code : Fault → Nat
  | .unimplementedInstruction _ _ => 1
  | .stackOverflow _ => 2
  | .stackUnderflow _ => 3
  | .memoryOutOfRange _ => 4
  | .keyIndexOutOfRange _ => 5

/-- `LoadResult`'s code: 6 for InsufficientMemory (R261), 0 for a load that succeeded. -/
def LoadResult.code : LoadResult → Nat
  | .ok _ => 0
  | .insufficientMemory _ => 6

/-- `fb_out[k]`, bit k of the framebuffer output (R277). -/
def State.fbOut (s : State) (k : Fin 2048) : Bool :=
  s.fb.pixel ⟨k.val / 64, by omega⟩ ⟨k.val % 64, by omega⟩

/-- `tone_out` (R277). -/
def State.toneOut (s : State) : Bool := s.toneRequested

/-- `fault_out`: the latched fault's code, 0 for none (R277). -/
def State.faultOut (s : State) : Nat :=
  match s.fault with
  | none => 0
  | some f => f.code

/-- `fault_info`: the latched fault, which carries its info (R277). -/
def State.faultInfo (s : State) : Option Fault := s.fault

/-- `key_in[15:0]`: bit k is KEY[k] (R278). -/
def State.keyIn (s : State) (k : Fin 16) : Bool := s.keys[k.val]

end Sys2Proof.Machine
end

