-- ==== Sys2Proof/Safety.lean ====
section
/-! DEFINITION. What the claims speak of: the invariant, safe steps, the parts of the state and who may write them, the cells a sprite touches. -/

namespace Sys2Proof.Machine

/-- The invariant of the model: memory keeps its canonical form (log entry 12). The other shape facts of the state
(SP in 0..16, the cursor in 0..4095, the sizes) are carried by the fields' types. -/
def State.Inv (s : State) : Prop := s.mem.wf = true

/-- A safe state: no fault is latched, so the next step runs an instruction or meets a fault of its own (R110). -/
def State.Live (s : State) : Prop := s.fault = none

/-- A safe step: it completes (R117). -/
def SafeStep (s : State) : Prop := ∃ t, step s = .next t

/-- The byte memory reads at an address. -/
def State.byteAt (s : State) (a : Nat) : Byte := s.mem.read a

/-- The word at PC, its byte at the lower address high (R62). -/
def State.wordAtPc (s : State) : Word := s.byteAt s.pc.toNat ++ s.byteAt (s.pc.toNat + 1)

/-! ### Frames -/

/-- The parts of the state (10_state.md). -/
inductive StatePart where
  | v | i | pc | mem | stack | dt | st | fb | keys | rng | fault
deriving DecidableEq, Repr

/-- Two states agree on a part: on every register, on every byte memory reads, on every slot and SP, and so on. -/
def Same (p : StatePart) (s t : State) : Prop :=
  match p with
  | .v => ∀ x, t.reg x = s.reg x
  | .i => t.i = s.i
  | .pc => t.pc = s.pc
  | .mem => ∀ a, t.byteAt a = s.byteAt a
  | .stack => t.stack = s.stack ∧ t.sp = s.sp
  | .dt => t.dt = s.dt
  | .st => t.st = s.st
  | .fb => t.fb = s.fb
  | .keys => t.keys = s.keys
  | .rng => t.rng = s.rng
  | .fault => t.fault = s.fault

/-- Two states agree on every part but the listed ones. -/
def SameBut (ps : List StatePart) (s t : State) : Prop := ∀ p, p ∉ ps → Same p s t

/-- Every byte outside the `n` bytes from `a` reads the same. -/
def SameMemoryOutside (s t : State) (a n : Nat) : Prop :=
  ∀ b, (b < a ∨ a + n ≤ b) → t.byteAt b = s.byteAt b

/-- Every general register but the listed ones is the same. -/
def SameRegsBut (s t : State) (xs : List Reg) : Prop := ∀ y, y ∉ xs → t.reg y = s.reg y

/-- Only the destination registers changed: the frame of a register instruction. -/
def OnlyRegs (s t : State) (xs : List Reg) : Prop := SameRegsBut s t xs ∧ SameBut [.v] s t

/-- The instructions that write VF as a flag (R21). -/
def writesFlag : Instr → Bool
  | .addReg _ _ | .sub _ _ | .subn _ _ | .shr _ _ | .shl _ _ | .drw _ _ _ => true
  | _ => false

/-- `y` is a destination register of the instruction, VF as a flag left aside (R22). -/
def isDest : Instr → Reg → Bool
  | .ldImm x _, y | .addImm x _, y | .ldReg x _, y | .or x _, y | .and x _, y | .xor x _, y
  | .addReg x _, y | .sub x _, y | .subn x _, y | .shr x _, y | .shl x _, y | .rnd x _, y
  | .ldVxDt x, y | .ldVxK x, y => y == x
  | .ldLoad x, y => decide (y.toNat ≤ x.toNat)
  | _, _ => false

/-- The instructions the spec names as writers of a part: PC in the execute phase (R23), I (R25), the stack (R26),
the timers (R28), the framebuffer (R31), the generator (R33), memory (R61), the registers (R22); none writes KEY (R32)
or, when it completes, FAULT (R34). -/
def writerOf : StatePart → Instr → Bool
  | .v, i => writesFlag i || (List.range 16).any fun y => isDest i (BitVec.ofNat 4 y)
  | .i, .ldI _ | .i, .addI _ | .i, .ldF _ => true
  | .pc, .ret | .pc, .jp _ | .pc, .call _ | .pc, .jpV0 _ | .pc, .seImm _ _ | .pc, .sneImm _ _
  | .pc, .seReg _ _ | .pc, .sneReg _ _ | .pc, .skp _ | .pc, .sknp _ | .pc, .ldVxK _ => true
  | .mem, .ldB _ | .mem, .ldStore _ => true
  | .stack, .call _ | .stack, .ret => true
  | .dt, .ldDt _ => true
  | .st, .ldSt _ => true
  | .fb, .cls | .fb, .drw _ _ _ => true
  | .rng, .rnd _ _ => true
  | _, _ => false

/-! ### Runs -/

/-- `k` completed steps lead from `s` to `t`, and none of them runs an instruction `bad` holds of. -/
def RunsWithout (bad : Instr → Prop) : Nat → State → State → Prop
  | 0, s, t => s = t
  | k + 1, s, t =>
    ∃ i u, decodeWord s.wordAtPc = some i ∧ ¬ bad i ∧ step s = .next u ∧ RunsWithout bad k u t

/-! ### Sprites -/

/-- A set bit of the sprite lands on cell (r, c): offset i horizontal and j vertical,
target `((x+i) mod 64, (y+j) mod 32)`, bit 7 - i of byte j (R223, R224). -/
def Touches (x y : Byte) (sprite : List Byte) (r : Fin 32) (c : Fin 64) : Prop :=
  ∃ j i : Nat, ∃ b : Byte, sprite[j]? = some b ∧ i < 8 ∧ b.getLsbD (7 - i) = true ∧
    r.val = (y.toNat + j) % 32 ∧ c.val = (x.toNat + i) % 64

end Sys2Proof.Machine
end

