-- ==== Sys2Proof/Certificates/Slice0/Obligations.lean ====
section
/-! DEFINITION. The statements about the machine, for the provers. Each docstring names what of spec/ it formalises,
and, where a clause rests on a decision of the spec or of the model, that decision. -/

open Sys2Proof Sys2Proof.Machine

/-! ### Encoding -/

/-- Words of the spec's examples decode to the instruction they stand for
(R151, R157, R226, R130, R185, R242; the patterns are the spec's decision D3, log entry 7),
and 0x5121 and 0x0000 decode to none (R96, R97, R104; the spec's decision D4, log entries 7 and 9). -/
def Obligations.SampleWordsDecode : Prop :=
  decodeWord 0x6A2F#16 = some (.ldImm 0xA 0x2F) ∧ decodeWord 0x8124#16 = some (.addReg 1 2) ∧
    decodeWord 0xD015#16 = some (.drw 0 1 5) ∧ decodeWord 0x00EE#16 = some .ret ∧
    decodeWord 0xF265#16 = some (.ldLoad 2) ∧ decodeWord 0xE29E#16 = some (.skp 2) ∧
    decodeWord 0x5121#16 = none ∧ decodeWord 0x0000#16 = none

/-- Decoding an encoded instruction gives it back, as a word and at the head of any byte string (R90, R94; D1, D3). -/
def Obligations.DecodeOfEncodeIsTheInstruction : Prop :=
  ∀ (i : Instr) (rest : List Byte),
    decodeWord (encode i) = some i ∧ decode (encodeBytes i ++ rest) = .ok (i, rest)

/-- A word that decodes is the encoding of what it decodes to: no bit of it is dropped (R94, R95; D3). -/
def Obligations.EncodeOfDecodeIsTheWord : Prop :=
  ∀ (w : Word) (i : Instr), decodeWord w = some i → encode i = w

/-- A word decodes exactly when a row of the opcode table matches it, to an instruction of that row, and no two rows match one word (R95; D3, D4). -/
def Obligations.DecodeMatchesExactlyOneTableRow : Prop :=
  ∀ w : Word,
    ((decodeWord w).isSome = true ↔ ∃ row ∈ opcodeRows, row.matches w = true) ∧
    (∀ i, decodeWord w = some i → i.row ∈ opcodeRows ∧ i.row.matches w = true) ∧
    (∀ r₁ ∈ opcodeRows, ∀ r₂ ∈ opcodeRows, r₁.matches w = true → r₂.matches w = true → r₁ = r₂)

/-- The unimplemented words, group by group, and they are the ill-formed ones (R96 to R101, R104; D4). -/
def Obligations.UnimplementedWordsByGroup : Prop :=
  ∀ w : Word,
    (decodeWord w = none ↔
      (fieldOp w = 0x0 ∧ w ≠ 0x00E0 ∧ w ≠ 0x00EE) ∨
      ((fieldOp w = 0x5 ∨ fieldOp w = 0x9) ∧ fieldN w ≠ 0) ∨
      (fieldOp w = 0x8 ∧ fieldN w ∈ [0x8, 0x9, 0xA, 0xB, 0xC, 0xD, 0xF]) ∨
      (fieldOp w = 0xE ∧ fieldKk w ∉ [0x9E, 0xA1]) ∨
      (fieldOp w = 0xF ∧
        fieldKk w ∉ [0x07, 0x0A, 0x15, 0x18, 0x1E, 0x29, 0x33, 0x55, 0x65])) ∧
    wellFormedWord w = (decodeWord w).isSome

/-! ### The step -/

/-- A step with no latched fault, whose word at PC decodes, runs that instruction on the state after the prologue:
PC 2 further modulo 2^16, both timers one lower unless 0, nothing else changed (R111 to R115, R118; D1, D19). -/
def Obligations.StepRunsTheDecodedInstruction : Prop :=
  ∀ (s : State) (i : Instr), s.fault = none → s.pc.toNat + 1 < 4096 →
    decodeWord s.wordAtPc = some i →
    ∃ u, step s = exec i u ∧ u.pc = s.pc + 2 ∧ u.dt.toNat = s.dt.toNat - 1 ∧
      u.st.toNat = s.st.toNat - 1 ∧ SameBut [.pc, .dt, .st] s u

/-- A word placed by `withFetchWord` is what the next step fetches and runs (the model's own operation, log entries 13 and 14; R62, R73). -/
def Obligations.PlacedWordRunsNext : Prop :=
  ∀ (s : State) (w : Nat) (i : Instr), s.Inv → decodeTableWord 16 w = some i →
    ∃ u, step (s.withFetchWord 16 w) = exec i u ∧
      SameBut [.pc, .mem, .dt, .st, .fault] s u ∧
      (s.pc.toNat + 1 < 4096 → SameMemoryOutside s u s.pc.toNat 2 ∧ u.pc = s.pc + 2)

/-- Before the execute phase a step can fault in two ways: a fetch that would touch an address of 4096 or more, with the first such
address; a fetched word that is no instruction, with the word and the address it was fetched from
(R104, R111, R262, R269; D4, D9). -/
def Obligations.FetchAndDecodeFaults : Prop :=
  ∀ s : State, s.fault = none →
    (4096 ≤ s.pc.toNat + 1 → step s =
      .fault (.memoryOutOfRange (if 4096 ≤ s.pc.toNat then s.pc.toNat else s.pc.toNat + 1))) ∧
    (s.pc.toNat + 1 < 4096 → decodeWord s.wordAtPc = none →
      step s = .fault (.unimplementedInstruction s.wordAtPc s.pc))

/-- A step that raises a fault reports it and latches it, KEY unchanged, whatever the rest of the state is left as;
every later step reports it again and changes nothing (R110, R117, R260; D5; the host-level step is log entry 1). -/
def Obligations.RaisedFaultIsLatchedAndFinal : Prop :=
  ∀ (s unspecified : State) (f : Fault), s.fault = none → step s = .fault f →
    ∃ t, s.hostStep unspecified = (t, .fault f) ∧ t.fault = some f ∧ t.keys = s.keys ∧
      ∀ unspecified', t.hostStep unspecified' = (t, .fault f)

/-- With a fault latched, a step reports it and changes nothing; `load` and key events leave it latched; `reset()` clears it
(R110, R273, R291, R292; D5). -/
def Obligations.OnlyResetClearsALatchedFault : Prop :=
  ∀ (s unspecified : State) (f : Fault), s.fault = some f →
    step s = .fault f ∧ s.hostStep unspecified = (s, .fault f) ∧
    (∀ bytes t, s.load bytes = .ok t → t.fault = some f) ∧
    (∀ map id, (s.keyDown map id).fault = some f ∧ (s.keyUp map id).fault = some f) ∧
    s.hostReset.fault = none

/-- The snapshot has 2048 cells, row-major, element k being `FB[k div 64][k mod 64]`, and it is the framebuffer output of
every completed step (R227; outputs stand in hostStep, log entry 19). -/
def Obligations.SnapshotIsRowMajor : Prop :=
  ∀ s : State, s.snapshot.length = 2048 ∧
    (∀ k, k < 2048 →
      s.snapshot[k]? = some (s.fb.pixel (Fin.ofNat 32 (k / 64)) (Fin.ofNat 64 (k % 64)))) ∧
    (∀ t unspecified, step s = .next t →
      ∃ tone, s.hostStep unspecified = (t, .ok t.snapshot tone))

/-- The tone output of a completed step is "ST is not 0", of the state the step leaves
(R249; that it is read from that state is the spec's decision D20, log entry 9; outputs stand in hostStep, log entry 19). -/
def Obligations.ToneIsTheSoundTimerNonzero : Prop :=
  ∀ s t unspecified : State, step s = .next t →
    ∃ framebuffer, s.hostStep unspecified = (t, .ok framebuffer (decide (t.st ≠ 0)))

/-- After k completed steps that do not write it, a timer that held v holds max(v - k, 0) (R248). -/
def Obligations.TimerCountsCompletedSteps : Prop :=
  ∀ (k : Nat) (s t : State),
    (RunsWithout (fun i => ∃ x, i = .ldDt x) k s t → t.dt.toNat = s.dt.toNat - k) ∧
    (RunsWithout (fun i => ∃ x, i = .ldSt x) k s t → t.st.toNat = s.st.toNat - k)

/-- No step is refused: every instruction has its meaning (R94, R118). -/
def Obligations.NoStepIsRefused : Prop := ∀ (s : State) (r : Refusal), step s ≠ .refused r

/-- The only faults an execute phase raises, each with its condition and its info (R261 to R266, R269; D6 to D8, D18). -/
def Obligations.FaultsOfEachInstruction : Prop :=
  ∀ (i : Instr) (s : State) (f : Fault), exec i s = .fault f →
    (∃ nnn, i = .call nnn ∧ s.sp = 16 ∧ f = .stackOverflow s.pc) ∨
    (i = .ret ∧ s.sp = 0 ∧ f = .stackUnderflow s.pc) ∨
    (∃ x, (i = .skp x ∨ i = .sknp x) ∧ 15 < (s.reg x).toNat ∧ f = .keyIndexOutOfRange (s.reg x)) ∨
    (∃ n, 0 < n ∧ 4096 < s.i.toNat + n ∧ f = .memoryOutOfRange (max s.i.toNat 4096) ∧
      ((∃ x y m, i = .drw x y m ∧ n = m.toNat) ∨ (∃ x, i = .ldB x ∧ n = 3) ∨
        (∃ x, (i = .ldStore x ∨ i = .ldLoad x) ∧ n = x.toNat + 1)))

/-- Where an instruction traps: CALL on a full stack, RET on an empty one, and an access through I that would leave memory, with the
first address of 4096 or more (R66, R263, R264, R265; D7, D8). -/
def Obligations.StackAndAccessLimitsFault : Prop :=
  ∀ (s : State) (x y : Reg) (n : Nibble) (nnn : Addr12),
    (s.sp = 16 → exec (.call nnn) s = .fault (.stackOverflow s.pc)) ∧
    (s.sp = 0 → exec .ret s = .fault (.stackUnderflow s.pc)) ∧
    (4096 < s.i.toNat + 3 → exec (.ldB x) s = .fault (.memoryOutOfRange (max s.i.toNat 4096))) ∧
    (4096 ≤ s.i.toNat + x.toNat →
      exec (.ldStore x) s = .fault (.memoryOutOfRange (max s.i.toNat 4096)) ∧
      exec (.ldLoad x) s = .fault (.memoryOutOfRange (max s.i.toNat 4096))) ∧
    (n ≠ 0 → 4096 < s.i.toNat + n.toNat →
      exec (.drw x y n) s = .fault (.memoryOutOfRange (max s.i.toNat 4096)))

/-! ### Invariants and memory -/

/-- Every step keeps memory in its canonical form (log entry 12). -/
def Obligations.StepKeepsTheInvariant : Prop := ∀ s t : State, s.Inv → step s = .next t → t.Inv

/-- The state after `new()` meets the invariant, which is the model's own representation of memory (log entry 12). -/
def Obligations.ResetMeetsTheInvariant : Prop := State.reset.Inv

/-- The host's operations keep the invariant (R291, R292, R278; the invariant is log entry 12). -/
def Obligations.HostOperationsKeepTheInvariant : Prop :=
  ∀ s : State, s.Inv → s.hostReset.Inv ∧ (∀ bytes t, s.load bytes = .ok t → t.Inv) ∧
    (∀ map id, (s.keyDown map id).Inv ∧ (s.keyUp map id).Inv)

/-- A read gives the last byte written there, and a write changes no other address (R68, R70);
a write also keeps the canonical form, which is the model's own representation (log entry 12). -/
def Obligations.MemoryReadsTheLastWrite : Prop :=
  ∀ (m : Memory) (a : Nat) (b : Byte), m.wf = true → a < 4096 →
    (m.write a b).wf = true ∧ (m.write a b).read a = b ∧
      ∀ a', a' ≠ a → (m.write a b).read a' = m.read a'

/-- Memories in canonical form that read the same everywhere are the same (the model's representation, log entry 12). -/
def Obligations.EqualReadsMeanEqualMemories : Prop :=
  ∀ m m' : Memory, m.wf = true → m'.wf = true → (∀ a, a < 4096 → m.read a = m'.read a) → m = m'

/-- A store is seen by the next fetch: after LD [I],Vx a fetch inside the stored bytes combines the registers stored
(R73, R297, R62; D1). -/
def Obligations.StoredBytesAreFetched : Prop :=
  ∀ (s t : State) (x : Reg) (k : Nat), s.Inv → exec (.ldStore x) s = .next t → k + 1 ≤ x.toNat →
    ∀ u : State, u.mem = t.mem → u.pc.toNat = s.i.toNat + k →
      u.fetch = .ok (s.reg (BitVec.ofNat 4 k) ++ s.reg (BitVec.ofNat 4 (k + 1)))

/-! ### Who writes what -/

/-- Each part of the state is changed in the execute phase only by the instructions the spec names as its writers
(R22, R23, R25, R26, R28, R31, R32, R33, R34, R61; `writerOf` lists them; D13). -/
def Obligations.EachPartHasItsWriters : Prop :=
  ∀ (p : StatePart) (i : Instr) (s t : State), exec i s = .next t → writerOf p i = false → Same p s t

/-- A general register is written only by an instruction that has it as a destination, or VF by a flag writer (R22). -/
def Obligations.RegistersAreWrittenOnlyAsDestinations : Prop :=
  ∀ (i : Instr) (s t : State) (y : Reg), exec i s = .next t → isDest i y = false →
    (y = 15 → writesFlag i = false) → t.reg y = s.reg y

/-- The six flag writers leave 0 or 1 in VF; every other instruction leaves VF unchanged unless VF is its destination
(R21 for who writes it; R37, R150, R226 for the values 0 and 1; with x = 15 the flag is there because it is written last,
the spec's decision D11, R164, log entry 8; OR, AND and XOR leaving VF is D12, and DRW of no rows D17, log entry 9). -/
def Obligations.FlagIsWrittenOnlyByTheSixFlagWriters : Prop :=
  ∀ (i : Instr) (s t : State), exec i s = .next t →
    (writesFlag i = true → t.reg 15 = 0 ∨ t.reg 15 = 1) ∧
    (writesFlag i = false → isDest i 15 = false → t.reg 15 = s.reg 15)

/-- The block never writes KEY: a completed step and `reset()` leave it, construction has every key released, and a key event
changes the one flag its identifier maps to (R32, R278). -/
def Obligations.KeysAreWrittenOnlyByTheHost : Prop :=
  (∀ s t : State, step s = .next t → t.keys = s.keys) ∧
  (∀ k : Fin 16, State.reset.keyIn k = false) ∧
  (∀ s : State, s.hostReset.keys = s.keys) ∧
  (∀ (s : State) (map : KeyMap) (id : Char) (k : Fin 16), map.lookup id = some k →
    (∀ j, (s.keyDown map id).keyIn j = if j = k then true else s.keyIn j) ∧
    (∀ j, (s.keyUp map id).keyIn j = if j = k then false else s.keyIn j)) ∧
  (∀ (s : State) (map : KeyMap) (id : Char), map.lookup id = none →
    s.keyDown map id = s ∧ s.keyUp map id = s)

/-! ### Construction, reset, load -/

/-- `new()`: glyphs preloaded, PC = 0x200, all else zeroed, the generator seeded with DEFAULT_SEED, whatever that is
(R290, R39; the glyph bytes are D24, log entry 6; the seed is open, D23, log entry 4, and the seeding D22, log entry 5;
the fault latch is D5, log entry 1). -/
def Obligations.ConstructionValues : Prop :=
  (∀ a, a < 80 → some (State.reset.byteAt a) = font[a]?) ∧
  (∀ a, 80 ≤ a → State.reset.byteAt a = 0) ∧
  (∀ x, State.reset.reg x = 0) ∧ State.reset.i = 0 ∧ State.reset.pc = 0x200 ∧
  (∀ k, k < 16 → State.reset.stack[k]? = some 0) ∧ State.reset.sp = 0 ∧
  State.reset.dt = 0 ∧ State.reset.st = 0 ∧ (∀ r c, State.reset.fb.pixel r c = false) ∧
  (∀ k, State.reset.keyIn k = false) ∧ State.reset.rng = seedRng Config.defaultSeed ∧
  State.reset.fault = none

/-- `reset()` gives every part its construction value but KEY, and clears FAULT (R291; D5). -/
def Obligations.HostResetKeepsOnlyTheKeys : Prop :=
  ∀ s : State, SameBut [.keys] State.reset s.hostReset ∧ s.hostReset.keys = s.keys ∧
    s.hostReset.fault = none

/-- `load` copies the cartridge to 0x200 upward and changes nothing else, or, over 3584 bytes, refuses with the length
(R267, R292). -/
def Obligations.LoadCopiesTheCartridgeOrRefuses : Prop :=
  ∀ (s : State) (bytes : List Byte), s.Inv →
    (bytes.length ≤ 3584 → ∃ t, s.load bytes = .ok t ∧
      (∀ (k : Nat) (b : Byte), bytes[k]? = some b → t.byteAt (0x200 + k) = b) ∧
      SameMemoryOutside s t 0x200 bytes.length ∧ SameBut [.mem] s t) ∧
    (3584 < bytes.length → s.load bytes = .insufficientMemory bytes.length)

/-! ### RandomSource and RND -/

/-- Seeding fills the table: three words by addition, the rest by XOR, then the carry and the cursor
(R200, R201; the constants are the spec's decision D22, log entry 5). -/
def Obligations.SeedingFillsTheTable : Prop :=
  ∀ seed : Word32,
    (seedRng seed).q[0]? = some seed ∧ (seedRng seed).q[1]? = some (seed + 0x9E3779B9) ∧
    (seedRng seed).q[2]? = some (seed + 0x9E3779B9 + 0x9E3779B9) ∧
    (∀ k, 3 ≤ k → k < 4096 → ∃ a b, (seedRng seed).q[k - 3]? = some a ∧
      (seedRng seed).q[k - 2]? = some b ∧
      (seedRng seed).q[k]? = some (a ^^^ b ^^^ 0x9E3779B9 ^^^ BitVec.ofNat 32 k)) ∧
    (seedRng seed).c = 362436 ∧ (seedRng seed).i = 4095

/-- A draw moves the cursor on by one modulo 4096 and splits 18782 * Q[i] + c exactly into the new carry times 2^32 - 1 and the
value reflected into Q[i], which is what is returned; no other word of the table changes
(R202, whose carry correction amounts to this division; constants D22, log entry 5). -/
def Obligations.DrawDividesExactlyAndReflects : Prop :=
  ∀ (r r' : RandomSource) (word : Word32), r.next = (r', word) →
    r'.i.val = (r.i.val + 1) % 4096 ∧
    (∃ q, r.q[r'.i.val]? = some q ∧
      18782 * q.toNat + r.c.toNat = r'.c.toNat * (2 ^ 32 - 1) + (0xFFFFFFFE - word).toNat) ∧
    r'.q[r'.i.val]? = some word ∧
    ∀ k : Nat, k ≠ r'.i.val → r'.q[k]? = r.q[k]?

/-- RND completes: Vx is the low byte of one draw under the mask, the generator advances by that one draw
(R204, R205; D21, log entry 5). -/
def Obligations.RndMasksOneDraw : Prop :=
  ∀ (s : State) (x : Reg) (kk : Byte), ∃ t, exec (.rnd x kk) s = .next t ∧
    t.reg x = s.rng.next.2.setWidth 8 &&& kk ∧ t.rng = s.rng.next.1 ∧
    SameRegsBut s t [x] ∧ SameBut [.v, .rng] s t

/-! ### Control flow -/

/-- JP nnn: the word 0x1nnn, and PC becomes nnn; nothing else changes (R131; the pattern is D3, log entry 7). -/
def Obligations.JumpLoadsTheAddress : Prop :=
  ∀ (s : State) (nnn : Addr12), decodeWord (0x1#4 ++ nnn) = some (.jp nnn) ∧
    ∃ t, exec (.jp nnn) s = .next t ∧ t.pc.toNat = nnn.toNat ∧ SameBut [.pc] s t

/-- JP V0,nnn: PC becomes the exact sum of nnn and V0, not masked (R137; D15). -/
def Obligations.JumpPlusV0IsNotMasked : Prop :=
  ∀ (s : State) (nnn : Addr12), ∃ t, exec (.jpV0 nnn) s = .next t ∧
    t.pc.toNat = nnn.toNat + (s.reg 0).toNat ∧ SameBut [.pc] s t

/-- CALL with a free slot completes: the return address goes into slot SP, SP goes up, PC becomes nnn (R27, R132; D7). -/
def Obligations.CallPushesTheReturnAddress : Prop :=
  ∀ (s : State) (nnn : Addr12), s.sp.val < 16 →
    ∃ t, exec (.call nnn) s = .next t ∧ t.pc.toNat = nnn.toNat ∧ t.sp.val = s.sp.val + 1 ∧
      t.stack[s.sp.val]? = some s.pc ∧ (∀ k : Nat, k ≠ s.sp.val → t.stack[k]? = s.stack[k]?) ∧
      SameBut [.pc, .stack] s t

/-- RET with an address held completes: PC becomes the newest one, SP goes down, the slot keeps its value (R27, R130; D7). -/
def Obligations.ReturnPopsTheNewestAddress : Prop :=
  ∀ s : State, 0 < s.sp.val →
    ∃ t, exec .ret s = .next t ∧ s.stack[s.sp.val - 1]? = some t.pc ∧ t.sp.val + 1 = s.sp.val ∧
      t.stack = s.stack ∧ SameBut [.pc, .stack] s t

/-- CALL then RET comes back to the instruction after the CALL with the same SP; only the slot written differs
(R130, 95_test_vectors.md L1.4; D7). -/
def Obligations.CallThenReturnComesBack : Prop :=
  ∀ (s : State) (nnn : Addr12), s.sp.val < 16 →
    ∃ t u, exec (.call nnn) s = .next t ∧ exec .ret t = .next u ∧ u.pc = s.pc ∧ u.sp = s.sp ∧
      (∀ k : Nat, k ≠ s.sp.val → u.stack[k]? = s.stack[k]?) ∧ SameBut [.stack] s u

/-- SE Vx,kk and SNE Vx,kk: the words 0x3xkk and 0x4xkk; PC goes 2 further exactly when Vx equals, or differs from, kk
(R133, R134; the patterns are D3, log entry 7). -/
def Obligations.SkipsOnAnImmediate : Prop :=
  ∀ (s : State) (x : Reg) (kk : Byte),
    decodeWord (0x3#4 ++ x ++ kk) = some (.seImm x kk) ∧
    decodeWord (0x4#4 ++ x ++ kk) = some (.sneImm x kk) ∧
    (∃ t, exec (.seImm x kk) s = .next t ∧
      t.pc = (if s.reg x = kk then s.pc + 2 else s.pc) ∧ SameBut [.pc] s t) ∧
    (∃ t, exec (.sneImm x kk) s = .next t ∧
      t.pc = (if s.reg x ≠ kk then s.pc + 2 else s.pc) ∧ SameBut [.pc] s t)

/-- SE Vx,Vy and SNE Vx,Vy: PC goes 2 further exactly when the registers are equal, or differ; with x = y the first always
skips and the second never (R135, R136, R139). -/
def Obligations.SkipsOnARegister : Prop :=
  ∀ (s : State) (x y : Reg),
    (∃ t, exec (.seReg x y) s = .next t ∧
      t.pc = (if s.reg x = s.reg y then s.pc + 2 else s.pc) ∧ SameBut [.pc] s t) ∧
    (∃ t, exec (.sneReg x y) s = .next t ∧
      t.pc = (if s.reg x ≠ s.reg y then s.pc + 2 else s.pc) ∧ SameBut [.pc] s t)

/-! ### ALU -/

/-- LD Vx,kk, ADD Vx,kk and LD Vx,Vy, the words 0x6xkk, 0x7xkk and 0x8xy0: Vx becomes kk, the sum modulo 256, Vy; VF is written
only as the destination; nothing else changes (R151, R152, R153;
the patterns are D3, log entry 7). -/
def Obligations.MovesAndImmediateAdd : Prop :=
  ∀ (s : State) (x y : Reg) (kk : Byte),
    decodeWord (0x6#4 ++ x ++ kk) = some (.ldImm x kk) ∧
    decodeWord (0x7#4 ++ x ++ kk) = some (.addImm x kk) ∧
    decodeWord (0x8#4 ++ x ++ y ++ 0x0#4) = some (.ldReg x y) ∧
    (∃ t, exec (.ldImm x kk) s = .next t ∧ t.reg x = kk ∧ OnlyRegs s t [x]) ∧
    (∃ t, exec (.addImm x kk) s = .next t ∧
      (t.reg x).toNat = ((s.reg x).toNat + kk.toNat) % 256 ∧ OnlyRegs s t [x]) ∧
    (∃ t, exec (.ldReg x y) s = .next t ∧ t.reg x = s.reg y ∧ OnlyRegs s t [x])

/-- OR, AND, XOR write the bitwise result into Vx and no flag (R154, R155, R156; VF kept is the spec's decision D12). -/
def Obligations.LogicWritesNoFlag : Prop :=
  ∀ (s : State) (x y : Reg),
    (∃ t, exec (.or x y) s = .next t ∧ t.reg x = s.reg x ||| s.reg y ∧ OnlyRegs s t [x]) ∧
    (∃ t, exec (.and x y) s = .next t ∧ t.reg x = s.reg x &&& s.reg y ∧ OnlyRegs s t [x]) ∧
    (∃ t, exec (.xor x y) s = .next t ∧ t.reg x = s.reg x ^^^ s.reg y ∧ OnlyRegs s t [x])

/-- ADD Vx,Vy: VF is 1 exactly when the exact sum is above 255, else 0, with x = 15 too; any other Vx becomes the sum modulo 256
(R157; flag last is the spec's decision D11, R164). -/
def Obligations.AddSetsTheCarry : Prop :=
  ∀ (s : State) (x y : Reg), ∃ t, exec (.addReg x y) s = .next t ∧
    t.reg 15 = (if 255 < (s.reg x).toNat + (s.reg y).toNat then 1 else 0) ∧
    (x ≠ 15 → (t.reg x).toNat = ((s.reg x).toNat + (s.reg y).toNat) % 256) ∧
    OnlyRegs s t [x, 15]

/-- SUB and SUBN: VF is 1 exactly when the minuend is strictly greater, else 0, with x = 15 too; any other Vx becomes the
difference modulo 256 (R158, R159, C3; flag last is the spec's decision D11, R164). -/
def Obligations.SubtractSetsTheStrictFlag : Prop :=
  ∀ (s : State) (x y : Reg),
    (∃ t, exec (.sub x y) s = .next t ∧
      t.reg 15 = (if (s.reg y).toNat < (s.reg x).toNat then 1 else 0) ∧
      (x ≠ 15 → (t.reg x).toNat = ((s.reg x).toNat + 256 - (s.reg y).toNat) % 256) ∧
      OnlyRegs s t [x, 15]) ∧
    (∃ t, exec (.subn x y) s = .next t ∧
      t.reg 15 = (if (s.reg x).toNat < (s.reg y).toNat then 1 else 0) ∧
      (x ≠ 15 → (t.reg x).toNat = ((s.reg y).toNat + 256 - (s.reg x).toNat) % 256) ∧
      OnlyRegs s t [x, 15])

/-- SHR and SHL shift Vx by one whatever y is: VF is the bit shifted out, with x = 15 too; any other Vx is halved, or doubled
modulo 256 (R160, R161, C6; SHIFT_SRC and flag last are the spec's decisions D10, D11, R164). -/
def Obligations.ShiftsKeepTheBitShiftedOut : Prop :=
  ∀ (s : State) (x y : Reg),
    (∃ t, exec (.shr x y) s = .next t ∧ (t.reg 15).toNat = (s.reg x).toNat % 2 ∧
      (x ≠ 15 → (t.reg x).toNat = (s.reg x).toNat / 2) ∧ OnlyRegs s t [x, 15]) ∧
    (∃ t, exec (.shl x y) s = .next t ∧ (t.reg 15).toNat = (s.reg x).toNat / 128 ∧
      (x ≠ 15 → (t.reg x).toNat = (s.reg x).toNat * 2 % 256) ∧ OnlyRegs s t [x, 15])

/-! ### Index register and memory -/

/-- LD I,nnn: the word 0xAnnn; I becomes nnn; nothing else changes (R180; the pattern is D3, log entry 7). -/
def Obligations.LoadIndexWritesTheAddress : Prop :=
  ∀ (s : State) (nnn : Addr12), decodeWord (0xA#4 ++ nnn) = some (.ldI nnn) ∧
    ∃ t, exec (.ldI nnn) s = .next t ∧ t.i.toNat = nnn.toNat ∧ SameBut [.i] s t

/-- ADD I,Vx wraps modulo 2^16 and writes no flag; LD F,Vx points at the glyph of the low nibble
(R181, R182, C2; D14, D16). -/
def Obligations.IndexArithmetic : Prop :=
  ∀ (s : State) (x : Reg),
    (∃ t, exec (.addI x) s = .next t ∧ t.i.toNat = (s.i.toNat + (s.reg x).toNat) % 65536 ∧
      SameBut [.i] s t) ∧
    (∃ t, exec (.ldF x) s = .next t ∧ t.i.toNat = (s.reg x).toNat % 16 * 5 ∧ SameBut [.i] s t)

/-- LD B,Vx with its three bytes inside memory completes: the decimal digits of Vx at I, I+1, I+2; every byte outside them and
everything else unchanged, I too (R183, R186; D13). -/
def Obligations.BcdStoresTheDigits : Prop :=
  ∀ (s : State) (x : Reg), s.Inv → s.indexAddress + 3 ≤ 4096 →
    ∃ t hundreds tens units, exec (.ldB x) s = .next t ∧
      hundreds ≤ 2 ∧ tens ≤ 9 ∧ units ≤ 9 ∧
      100 * hundreds + 10 * tens + units = (s.reg x).toNat ∧
      (t.byteAt s.indexAddress).toNat = hundreds ∧
      (t.byteAt (s.indexAddress + 1)).toNat = tens ∧
      (t.byteAt (s.indexAddress + 2)).toNat = units ∧
      SameMemoryOutside s t s.indexAddress 3 ∧ SameBut [.mem] s t

/-- LD [I],Vx with its bytes inside memory completes: V0..Vx at I..I+x; every byte outside them and everything else unchanged,
I too (R184, R186; D13). -/
def Obligations.BulkStoreWritesTheRange : Prop :=
  ∀ (s : State) (x : Reg), s.Inv → s.indexAddress + x.toNat < 4096 →
    ∃ t, exec (.ldStore x) s = .next t ∧
      (∀ k, k ≤ x.toNat → t.byteAt (s.indexAddress + k) = s.reg (BitVec.ofNat 4 k)) ∧
      SameMemoryOutside s t s.indexAddress (x.toNat + 1) ∧ SameBut [.mem] s t

/-- LD Vx,[I] with its bytes inside memory completes: V0..Vx are the bytes at I..I+x, the registers above x and everything else
unchanged, I too (R185, R186; D13). -/
def Obligations.BulkLoadReadsTheRange : Prop :=
  ∀ (s : State) (x : Reg), s.indexAddress + x.toNat < 4096 →
    ∃ t, exec (.ldLoad x) s = .next t ∧
      (∀ k, k ≤ x.toNat → t.reg (BitVec.ofNat 4 k) = s.byteAt (s.indexAddress + k)) ∧
      (∀ y : Reg, x.toNat < y.toNat → t.reg y = s.reg y) ∧ SameBut [.v] s t

/-- What LD [I],Vx stored, LD Vx,[I] with the same I reloads, whatever the registers hold by then; registers above x stay
(R184, R185, 95_test_vectors.md L1.8; D13). -/
def Obligations.BulkStoreThenLoadRestores : Prop :=
  ∀ (s : State) (x : Reg), s.Inv → s.indexAddress + x.toNat < 4096 →
    ∃ t, exec (.ldStore x) s = .next t ∧
      ∀ u : State, u.mem = t.mem → u.i = t.i →
        ∃ w, exec (.ldLoad x) u = .next w ∧
          (∀ k, k ≤ x.toNat → w.reg (BitVec.ofNat 4 k) = s.reg (BitVec.ofNat 4 k)) ∧
          (∀ y : Reg, x.toNat < y.toNat → w.reg y = u.reg y)

/-! ### Display -/

/-- CLS: the word 0x00E0; every cell is off; nothing else changes, VF too (R221, R222; the word is D3, log entry 7). -/
def Obligations.ClearScreenTurnsEveryCellOff : Prop :=
  decodeWord 0x00E0#16 = some .cls ∧
  ∀ s : State, ∃ t, exec .cls s = .next t ∧ (∀ r c, t.fb.pixel r c = false) ∧ SameBut [.fb] s t

/-- drawSprite flips exactly the cells a set sprite bit touches, wrapping at both edges, and its collision is that one of them was
on before the draw (R223, R224; that the value read at each cell is the one before the call is R225's derived sentence). -/
def Obligations.DrawSpriteFlipsTheTouchedCells : Prop :=
  ∀ (fb : Framebuffer) (x y : Byte) (sprite : List Byte), sprite.length ≤ 15 →
    (∀ r c, Touches x y sprite r c →
      (fb.drawSprite x y sprite).1.pixel r c = !fb.pixel r c) ∧
    (∀ r c, ¬ Touches x y sprite r c →
      (fb.drawSprite x y sprite).1.pixel r c = fb.pixel r c) ∧
    ((fb.drawSprite x y sprite).2 = true ↔
      ∃ r c, Touches x y sprite r c ∧ fb.pixel r c = true)

/-- DRW with its sprite inside memory, or n = 0, completes: it draws the n bytes at I at the coordinates Vx, Vy of before, and VF
is the collision; memory and everything else unchanged, I too (R226; n = 0 is D17, I kept is D13). -/
def Obligations.DrawReadsTheSpriteAndSetsTheFlag : Prop :=
  ∀ (s : State) (x y : Reg) (n : Nibble), n = 0 ∨ s.indexAddress + n.toNat ≤ 4096 →
    ∃ t sprite, exec (.drw x y n) s = .next t ∧ sprite.length = n.toNat ∧
      (∀ k, k < n.toNat → sprite[k]? = some (s.byteAt (s.indexAddress + k))) ∧
      t.fb = (s.fb.drawSprite (s.reg x) (s.reg y) sprite).1 ∧
      t.reg 15 = (if (s.fb.drawSprite (s.reg x) (s.reg y) sprite).2 = true then 1 else 0) ∧
      SameRegsBut s t [15] ∧ SameBut [.v, .fb] s t

/-- A sprite drawn twice at the same place restores the framebuffer; the second draw collides exactly when a touched cell was off
at first, so on a blank framebuffer exactly when the sprite has a set bit
(R225, R226; R226 says the last without the word blank, log entry 15). -/
def Obligations.DrawingTwiceRestores : Prop :=
  ∀ (fb : Framebuffer) (x y : Byte) (sprite : List Byte), sprite.length ≤ 15 →
    ((fb.drawSprite x y sprite).1.drawSprite x y sprite).1 = fb ∧
    (((fb.drawSprite x y sprite).1.drawSprite x y sprite).2 = true ↔
      ∃ r c, Touches x y sprite r c ∧ fb.pixel r c = false) ∧
    (fb = Framebuffer.clear →
      (((fb.drawSprite x y sprite).1.drawSprite x y sprite).2 = true ↔ ∃ b ∈ sprite, b ≠ 0))

/-! ### Keys and timers -/

/-- SKP and SKNP on a key index complete: PC goes 2 further exactly when that key is held, or is not; on a larger value they
fault with it (R240, R242, R243, C8; D18). -/
def Obligations.KeySkips : Prop :=
  ∀ (s : State) (x : Reg),
    (∀ k : Fin 16, (s.reg x).toNat = k.val →
      (∃ t, exec (.skp x) s = .next t ∧
        t.pc = (if s.keyIn k = true then s.pc + 2 else s.pc) ∧ SameBut [.pc] s t) ∧
      (∃ t, exec (.sknp x) s = .next t ∧
        t.pc = (if s.keyIn k = false then s.pc + 2 else s.pc) ∧ SameBut [.pc] s t)) ∧
    (15 < (s.reg x).toNat →
      exec (.skp x) s = .fault (.keyIndexOutOfRange (s.reg x)) ∧
      exec (.sknp x) s = .fault (.keyIndexOutOfRange (s.reg x)))

/-- firstPressedIndex is the lowest index pressed, or none (R241). -/
def Obligations.FirstPressedIsTheLowest : Prop :=
  ∀ s : State,
    (∀ k, s.firstPressedIndex = some k ↔
      ∃ h : k < 16, s.keyIn ⟨k, h⟩ = true ∧ ∀ j : Fin 16, j.val < k → s.keyIn j = false) ∧
    (s.firstPressedIndex = none ↔ ∀ j : Fin 16, s.keyIn j = false)

/-- LD Vx,K: with a key held it completes, Vx the lowest one held; with none, PC goes back by 2, so that a whole step leaves PC
where it was, and nothing else changes (R245; D19 for the timers of a waiting step). -/
def Obligations.KeyWaitTakesTheLowestKeyOrStays : Prop :=
  ∀ (s : State) (x : Reg),
    (∀ k : Fin 16, s.keyIn k = true → (∀ j : Fin 16, j < k → s.keyIn j = false) →
      ∃ t, exec (.ldVxK x) s = .next t ∧ (t.reg x).toNat = k.val ∧ OnlyRegs s t [x]) ∧
    ((∀ k : Fin 16, s.keyIn k = false) →
      (∃ t, exec (.ldVxK x) s = .next t ∧ t.pc = s.pc - 2 ∧ SameBut [.pc] s t) ∧
      (s.fault = none → s.pc.toNat + 1 < 4096 → decodeWord s.wordAtPc = some (.ldVxK x) →
        ∃ t, step s = .next t ∧ t.pc = s.pc ∧ SameBut [.dt, .st] s t))

/-- LD Vx,DT: the word 0xFx07; a step of it leaves in Vx the delay timer decremented in that step, VF too when x is 15, and no
other register changes (R244; the pattern is D3, log entry 7). -/
def Obligations.DelayTimerIsReadAfterTheDecrement : Prop :=
  ∀ (s : State) (x : Reg), decodeWord (0xF#4 ++ x ++ 0x07#8) = some (.ldVxDt x) ∧
    (∃ t, exec (.ldVxDt x) s = .next t ∧ t.reg x = s.dt ∧ OnlyRegs s t [x]) ∧
    (s.fault = none → s.pc.toNat + 1 < 4096 → decodeWord s.wordAtPc = some (.ldVxDt x) →
      ∃ t, step s = .next t ∧ (t.reg x).toNat = s.dt.toNat - 1 ∧ SameRegsBut s t [x])

/-- LD DT,Vx and LD ST,Vx write the timer, which this step no longer decrements; the tone then is Vx above 0
(R246, R247; D20 for the tone). -/
def Obligations.TimersAreSetFromARegister : Prop :=
  ∀ (s : State) (x : Reg),
    (∃ t, exec (.ldDt x) s = .next t ∧ t.dt = s.reg x ∧ SameBut [.dt] s t) ∧
    (∃ t, exec (.ldSt x) s = .next t ∧ t.st = s.reg x ∧
      t.toneRequested = decide (0 < (s.reg x).toNat) ∧ SameBut [.st] s t)

/-! ### Registers -/

/-- V0 to VF are sixteen independent bytes, none aliased or hardwired: any byte written into any register is what a read of it
gives, whole, to any register, and no other register changes (R20). -/
def Obligations.RegistersAreIndependentBytes : Prop :=
  ∀ (s : State) (x y : Reg) (b : Byte),
    ∃ t u, exec (.ldImm x b) s = .next t ∧ t.reg x = b ∧ SameRegsBut s t [x] ∧
      exec (.ldReg y x) t = .next u ∧ u.reg y = b ∧ SameRegsBut t u [y]
end

