-- ==== Sys2Proof/Laws/Decode.lean ====
section
/-! SUPPORT. Fields and words: each field of a word built from fields, a word from its own fields, all through their numbers (R91). -/

namespace Sys2Proof

theorem toNat_append_eq {m k : Nat} (a : BitVec m) (b : BitVec k) :
    (a ++ b).toNat = a.toNat * 2 ^ k + b.toNat := by
  rw [BitVec.toNat_append, ← Nat.shiftLeft_add_eq_or_of_lt b.isLt, Nat.shiftLeft_eq]

theorem toNat_nibbles (op x y n : Nibble) :
    (nibbles op x y n).toNat = op.toNat * 4096 + x.toNat * 256 + y.toNat * 16 + n.toNat := by
  have h1 := toNat_append_eq op x
  have h2 := toNat_append_eq (op ++ x) y
  have h3 := toNat_append_eq (op ++ x ++ y) n
  have h4 : (nibbles op x y n).toNat = (op ++ x ++ y ++ n).toNat := rfl
  omega

theorem toNat_nibbleByte (op x : Nibble) (kk : Byte) :
    (nibbleByte op x kk).toNat = op.toNat * 4096 + x.toNat * 256 + kk.toNat := by
  have h1 := toNat_append_eq op x
  have h2 := toNat_append_eq (op ++ x) kk
  have h3 : (nibbleByte op x kk).toNat = (op ++ x ++ kk).toNat := rfl
  omega

theorem toNat_nibbleAddr (op : Nibble) (nnn : Addr12) :
    (nibbleAddr op nnn).toNat = op.toNat * 4096 + nnn.toNat := toNat_append_eq op nnn

theorem toNat_wordOfBytes (high low : Byte) :
    (wordOfBytes high low).toNat = high.toNat * 256 + low.toNat := toNat_append_eq high low

theorem toNat_fieldOp (w : Word) : (fieldOp w).toNat = w.toNat / 4096 % 16 := by
  simp [fieldOp, Nat.shiftRight_eq_div_pow]

theorem toNat_fieldX (w : Word) : (fieldX w).toNat = w.toNat / 256 % 16 := by
  simp [fieldX, Nat.shiftRight_eq_div_pow]

theorem toNat_fieldY (w : Word) : (fieldY w).toNat = w.toNat / 16 % 16 := by
  simp [fieldY, Nat.shiftRight_eq_div_pow]

theorem toNat_fieldN (w : Word) : (fieldN w).toNat = w.toNat % 16 := by
  simp [fieldN, Nat.shiftRight_eq_div_pow]

theorem toNat_fieldKk (w : Word) : (fieldKk w).toNat = w.toNat % 256 := by
  simp [fieldKk, Nat.shiftRight_eq_div_pow]

theorem toNat_fieldNnn (w : Word) : (fieldNnn w).toNat = w.toNat % 4096 := by
  simp [fieldNnn, Nat.shiftRight_eq_div_pow]

theorem toNat_highByte (w : Word) : (highByte w).toNat = w.toNat / 256 := by
  have := w.isLt
  simp [highByte, Nat.shiftRight_eq_div_pow]
  omega

theorem toNat_lowByte (w : Word) : (lowByte w).toNat = w.toNat % 256 := by
  have := w.isLt
  simp [lowByte, Nat.shiftRight_eq_div_pow]

@[simp] theorem fieldOp_nibbles (op x y n : Nibble) : fieldOp (nibbles op x y n) = op := by
  have := op.isLt; have := x.isLt; have := y.isLt; have := n.isLt;
  apply BitVec.eq_of_toNat_eq; rw [toNat_fieldOp, toNat_nibbles]; omega

@[simp] theorem fieldX_nibbles (op x y n : Nibble) : fieldX (nibbles op x y n) = x := by
  have := op.isLt; have := x.isLt; have := y.isLt; have := n.isLt;
  apply BitVec.eq_of_toNat_eq; rw [toNat_fieldX, toNat_nibbles]; omega

@[simp] theorem fieldY_nibbles (op x y n : Nibble) : fieldY (nibbles op x y n) = y := by
  have := op.isLt; have := x.isLt; have := y.isLt; have := n.isLt;
  apply BitVec.eq_of_toNat_eq; rw [toNat_fieldY, toNat_nibbles]; omega

@[simp] theorem fieldN_nibbles (op x y n : Nibble) : fieldN (nibbles op x y n) = n := by
  have := op.isLt; have := x.isLt; have := y.isLt; have := n.isLt;
  apply BitVec.eq_of_toNat_eq; rw [toNat_fieldN, toNat_nibbles]; omega

@[simp] theorem fieldOp_nibbleByte (op x : Nibble) (kk : Byte) : fieldOp (nibbleByte op x kk) = op := by
  have := op.isLt; have := x.isLt; have := kk.isLt;
  apply BitVec.eq_of_toNat_eq; rw [toNat_fieldOp, toNat_nibbleByte]; omega

@[simp] theorem fieldX_nibbleByte (op x : Nibble) (kk : Byte) : fieldX (nibbleByte op x kk) = x := by
  have := op.isLt; have := x.isLt; have := kk.isLt;
  apply BitVec.eq_of_toNat_eq; rw [toNat_fieldX, toNat_nibbleByte]; omega

@[simp] theorem fieldKk_nibbleByte (op x : Nibble) (kk : Byte) : fieldKk (nibbleByte op x kk) = kk := by
  have := op.isLt; have := x.isLt; have := kk.isLt;
  apply BitVec.eq_of_toNat_eq; rw [toNat_fieldKk, toNat_nibbleByte]; omega

@[simp] theorem fieldOp_nibbleAddr (op : Nibble) (nnn : Addr12) : fieldOp (nibbleAddr op nnn) = op := by
  have := op.isLt; have := nnn.isLt;
  apply BitVec.eq_of_toNat_eq; rw [toNat_fieldOp, toNat_nibbleAddr]; omega

@[simp] theorem fieldNnn_nibbleAddr (op : Nibble) (nnn : Addr12) : fieldNnn (nibbleAddr op nnn) = nnn := by
  have := op.isLt; have := nnn.isLt;
  apply BitVec.eq_of_toNat_eq; rw [toNat_fieldNnn, toNat_nibbleAddr]; omega

/-- A word is its four nibbles. -/
theorem nibbles_fields (w : Word) : nibbles (fieldOp w) (fieldX w) (fieldY w) (fieldN w) = w := by
  have := w.isLt
  apply BitVec.eq_of_toNat_eq
  rw [toNat_nibbles, toNat_fieldOp, toNat_fieldX, toNat_fieldY, toNat_fieldN]; omega

theorem nibbleByte_fields (w : Word) : nibbleByte (fieldOp w) (fieldX w) (fieldKk w) = w := by
  have := w.isLt
  apply BitVec.eq_of_toNat_eq
  rw [toNat_nibbleByte, toNat_fieldOp, toNat_fieldX, toNat_fieldKk]; omega

theorem nibbleAddr_fields (w : Word) : nibbleAddr (fieldOp w) (fieldNnn w) = w := by
  have := w.isLt
  apply BitVec.eq_of_toNat_eq
  rw [toNat_nibbleAddr, toNat_fieldOp, toNat_fieldNnn]; omega

/-! ### The opcode table's masks on words built from fields -/

theorem nibbleAddr_mask (op : Nibble) (nnn : Addr12) :
    nibbleAddr op nnn &&& 0xF000#16 = nibbleAddr op 0 := by
  have h : nibbleAddr op nnn &&& nibbleAddr 15 0 = nibbleAddr op 0 := by
    unfold nibbleAddr
    rw [BitVec.and_append, show op &&& 15 = op from BitVec.and_allOnes]
    simp
  exact h

theorem nibbleByte_mask (op x : Nibble) (kk : Byte) :
    nibbleByte op x kk &&& 0xF0FF#16 = nibbleByte op 0 kk := by
  have h : nibbleByte op x kk &&& nibbleByte 15 0 255 = nibbleByte op 0 kk := by
    unfold nibbleByte
    rw [BitVec.and_append, BitVec.and_append, show op &&& 15 = op from BitVec.and_allOnes,
      show kk &&& 255 = kk from BitVec.and_allOnes]
    simp
  exact h

theorem nibbles_mask (op x y n : Nibble) :
    nibbles op x y n &&& 0xF00F#16 = nibbles op 0 0 n := by
  have h : nibbles op x y n &&& nibbles 15 0 0 15 = nibbles op 0 0 n := by
    unfold nibbles
    rw [BitVec.and_append, BitVec.and_append, BitVec.and_append,
      show op &&& 15 = op from BitVec.and_allOnes, show n &&& 15 = n from BitVec.and_allOnes]
    simp
  exact h

theorem OpcodeRow.matches_of_mask {w value mask : Word} {mnemonic : String} (h : w &&& mask = value) :
    (OpcodeRow.mk mnemonic value mask).matches w = true := by
  simpa [OpcodeRow.matches] using h

/-- The three formats are one word seen by its fields (R91). -/
theorem nibbleByte_eq_nibbleAddr (op x : Nibble) (kk : Byte) :
    nibbleByte op x kk = nibbleAddr op (x ++ kk) := by
  have h := toNat_append_eq x kk
  apply BitVec.eq_of_toNat_eq
  rw [toNat_nibbleByte, toNat_nibbleAddr]; omega

theorem nibbles_eq_nibbleAddr (op x y n : Nibble) :
    nibbles op x y n = nibbleAddr op (x ++ y ++ n) := by
  have h := toNat_append_eq x y
  have h' := toNat_append_eq (x ++ y) n
  apply BitVec.eq_of_toNat_eq
  rw [toNat_nibbles, toNat_nibbleAddr]; omega

/-- A word is its two bytes (R62). -/
@[simp] theorem wordOfBytes_bytes (w : Word) : wordOfBytes (highByte w) (lowByte w) = w := by
  have := w.isLt
  apply BitVec.eq_of_toNat_eq
  rw [toNat_wordOfBytes, toNat_highByte, toNat_lowByte]; omega

end Sys2Proof
end

