-- ==== Sys2Proof/Laws/Framebuffer.lean ====
section
/-! SUPPORT. The laws of the framebuffer: one cell after one update, and a run of cell flips (R31, R221, R223, R225). -/

namespace Sys2Proof.Machine

/-- The cell after one update. -/
theorem Framebuffer.pixel_setPixel (fb : Framebuffer) (r r' : Fin 32) (c c' : Fin 64) (b : Bool) :
    (fb.setPixel r c b).pixel r' c' = if r = r' ∧ c = c' then b else fb.pixel r' c' := by
  by_cases hr : r = r'
  · subst hr
    by_cases hc : c = c'
    · subst hc; simp [Framebuffer.pixel, Framebuffer.setPixel]
    · have : c.val ≠ c'.val := fun h => hc (Fin.ext h)
      simp [Framebuffer.pixel, Framebuffer.setPixel, hc, this]
  · have : r.val ≠ r'.val := fun h => hr (Fin.ext h)
    simp [Framebuffer.pixel, Framebuffer.setPixel, hr, this]

@[simp] theorem Framebuffer.pixel_clear (r : Fin 32) (c : Fin 64) :
    Framebuffer.clear.pixel r c = false := by
  simp [Framebuffer.pixel, Framebuffer.clear]

/-- Two grids with the same cells are the same. -/
theorem Framebuffer.ext_pixel {fb fb' : Framebuffer} (h : ∀ r c, fb.pixel r c = fb'.pixel r c) :
    fb = fb' := by
  apply Vector.ext
  intro r hr
  apply Vector.ext
  intro c hc
  exact h ⟨r, hr⟩ ⟨c, hc⟩

/-- Flip the listed cells, one after the other, with the collision of each. -/
def blitCells (cells : List (Fin 32 × Fin 64)) (acc : Framebuffer × Bool) : Framebuffer × Bool :=
  cells.foldl (fun acc rc => blitCell acc rc.1 rc.2) acc

/-- Flipping distinct cells: each listed cell is flipped, no other changes (R225). -/
theorem pixel_blitCells {cells : List (Fin 32 × Fin 64)} (hn : cells.Nodup) (acc : Framebuffer × Bool)
    (r : Fin 32) (c : Fin 64) :
    (blitCells cells acc).1.pixel r c =
      if (r, c) ∈ cells then !acc.1.pixel r c else acc.1.pixel r c := by
  induction cells generalizing acc with
  | nil => simp [blitCells]
  | cons p rest ih =>
    obtain ⟨hp, hr⟩ := List.nodup_cons.mp hn
    have := ih hr (blitCell acc p.1 p.2)
    simp only [blitCells, List.foldl_cons] at this ⊢
    rw [this]
    by_cases he : (r, c) = p
    · subst he
      simp [hp, blitCell, Framebuffer.pixel_setPixel]
    · have : ¬ (p.1 = r ∧ p.2 = c) := fun h => he (Prod.ext h.1.symm h.2.symm)
      simp [he, blitCell, Framebuffer.pixel_setPixel, this]

/-- The collision of flipping distinct cells: one of them was on before (R225). -/
theorem collision_blitCells {cells : List (Fin 32 × Fin 64)} (hn : cells.Nodup)
    (acc : Framebuffer × Bool) :
    (blitCells cells acc).2 = (acc.2 || cells.any fun rc => acc.1.pixel rc.1 rc.2) := by
  induction cells generalizing acc with
  | nil => simp [blitCells]
  | cons p rest ih =>
    obtain ⟨hp, hr⟩ := List.nodup_cons.mp hn
    have := ih hr (blitCell acc p.1 p.2)
    simp only [blitCells, List.foldl_cons] at this ⊢
    rw [this]
    have hrest : (rest.any fun rc => (blitCell acc p.1 p.2).1.pixel rc.1 rc.2) =
        rest.any fun rc => acc.1.pixel rc.1 rc.2 := by
      have key : ∀ rc ∈ rest, (blitCell acc p.1 p.2).1.pixel rc.1 rc.2 = acc.1.pixel rc.1 rc.2 := by
        intro rc hrc
        have : ¬ (p.1 = rc.1 ∧ p.2 = rc.2) := fun h => hp (by
          rwa [show p = rc from Prod.ext h.1 h.2])
        simp [blitCell, Framebuffer.pixel_setPixel, this]
      rw [Bool.eq_iff_iff]
      simp only [List.any_eq_true]
      constructor
      · rintro ⟨rc, hm, h⟩; exact ⟨rc, hm, by rwa [key rc hm] at h⟩
      · rintro ⟨rc, hm, h⟩; exact ⟨rc, hm, by rwa [key rc hm]⟩
    rw [hrest]
    simp [blitCell, Bool.or_assoc]

/-- The cells of a sprite byte's set bits, left to right (R223, R224). -/
def byteCells (x y j : Nat) (b : Byte) : List (Fin 32 × Fin 64) :=
  ((List.range 8).filter fun i => spriteBit b i).map fun i => (wrapRow y j, wrapColumn x i)

/-- The cells of a sprite's set bits, row by row (R223). -/
def spriteCells (x y j : Nat) : List Byte → List (Fin 32 × Fin 64)
  | [] => []
  | b :: rest => byteCells x y j b ++ spriteCells x y (j + 1) rest

/-- Drawing a byte is flipping its cells. -/
theorem blitByte_eq_blitCells (x y j : Nat) (b : Byte) (acc : Framebuffer × Bool) :
    blitByte x y j b acc = blitCells (byteCells x y j b) acc := by
  simp only [blitByte, blitCells, byteCells, List.foldl_map, List.foldl_filter]

/-- Drawing a sprite is flipping its cells. -/
theorem blitRows_eq_blitCells (x y j : Nat) (sprite : List Byte) (acc : Framebuffer × Bool) :
    blitRows x y j sprite acc = blitCells (spriteCells x y j sprite) acc := by
  induction sprite generalizing j acc with
  | nil => rfl
  | cons b rest ih =>
    simp only [blitRows, ih, blitByte_eq_blitCells, spriteCells, blitCells, List.foldl_append]

/-- The cells of a sprite byte. -/
theorem mem_byteCells {x y j : Nat} {b : Byte} {r : Fin 32} {c : Fin 64} :
    (r, c) ∈ byteCells x y j b ↔
      ∃ i, i < 8 ∧ b.getLsbD (7 - i) = true ∧ r.val = (y + j) % 32 ∧ c.val = (x + i) % 64 := by
  simp only [byteCells, List.mem_map, List.mem_filter, List.mem_range, Prod.mk.injEq, spriteBit]
  constructor
  · rintro ⟨i, ⟨h1, h2⟩, rfl, rfl⟩; exact ⟨i, h1, h2, rfl, rfl⟩
  · rintro ⟨i, h1, h2, h3, h4⟩; exact ⟨i, ⟨h1, h2⟩, Fin.ext h3.symm, Fin.ext h4.symm⟩

/-- The cells of a sprite: those its set bits land on (R223, R224). -/
theorem mem_spriteCells {x y j : Nat} {sprite : List Byte} {r : Fin 32} {c : Fin 64} :
    (r, c) ∈ spriteCells x y j sprite ↔
      ∃ k i : Nat, ∃ b : Byte, sprite[k]? = some b ∧ i < 8 ∧ b.getLsbD (7 - i) = true ∧
        r.val = (y + (j + k)) % 32 ∧ c.val = (x + i) % 64 := by
  induction sprite generalizing j with
  | nil => simp [spriteCells]
  | cons b rest ih =>
    simp only [spriteCells, List.mem_append, mem_byteCells, ih]
    constructor
    · rintro (⟨i, h⟩ | ⟨k, i, b', hk, h⟩)
      · exact ⟨0, i, b, by simp, by simpa using h⟩
      · exact ⟨k + 1, i, b', by simpa using hk, by
          rw [show j + (k + 1) = j + 1 + k by omega]; exact h⟩
    · rintro ⟨k, i, b', hk, h⟩
      cases k with
      | zero => left; simp at hk; subst hk; exact ⟨i, by simpa using h⟩
      | succ k => right; exact ⟨k, i, b', by simpa using hk, by
          rw [show j + 1 + k = j + (k + 1) by omega]; exact h⟩

theorem byteCells_nodup (x y j : Nat) (b : Byte) : (byteCells x y j b).Nodup := by
  apply List.Nodup.map_on
  · intro i hi i' hi' h
    simp only [List.mem_filter, List.mem_range] at hi hi'
    have := congrArg (fun p => p.2.val) h
    simp only [wrapColumn] at this
    omega
  · exact List.Nodup.filter _ List.nodup_range

/-- A sprite of at most 32 rows touches no cell twice. -/
theorem spriteCells_nodup (x y j : Nat) (sprite : List Byte) (h : sprite.length ≤ 32) :
    (spriteCells x y j sprite).Nodup := by
  induction sprite generalizing j with
  | nil => simp [spriteCells]
  | cons b rest ih =>
    simp only [List.length_cons] at h
    refine List.Nodup.append (byteCells_nodup ..) (ih _ (by omega)) ?_
    rintro ⟨r, c⟩ h1 h2
    obtain ⟨i, _, _, h3, _⟩ := mem_byteCells.1 h1
    obtain ⟨k, _, _, hk, _, _, h4, _⟩ := mem_spriteCells.1 h2
    have : k < rest.length := (List.getElem?_eq_some_iff.1 hk).1
    omega

end Sys2Proof.Machine
end

