-- ==== Sys2Proof/Laws/Memory.lean ====
section
/-! SUPPORT. The laws of memory: read after write, writes elsewhere, the canonical form, byte sequences. -/

namespace Sys2Proof.Machine

@[simp] theorem Memory.read_nil (a : Nat) : Memory.read [] a = Memory.blank a := rfl

/-- A canonical memory from address `lo` up lists nothing below `lo`. -/
theorem Memory.read_below {m : Memory} {lo a : Nat} (h : m.wfFrom lo = true) (ha : a < lo) :
    m.read a = Memory.blank a := by
  induction m generalizing lo with
  | nil => rfl
  | cons p rest ih =>
    obtain ⟨a', b'⟩ := p
    simp only [Memory.wfFrom, Bool.and_eq_true, decide_eq_true_eq] at h
    obtain ⟨⟨⟨h1, _⟩, _⟩, h4⟩ := h
    have hne : a ≠ a' := by omega
    simp only [Memory.read, hne, if_false]
    exact ih h4 (by omega)

theorem Memory.wfFrom_mono {m : Memory} {lo lo' : Nat} (h : m.wfFrom lo = true) (hl : lo' ≤ lo) :
    m.wfFrom lo' = true := by
  cases m with
  | nil => rfl
  | cons p rest =>
    obtain ⟨a', b'⟩ := p
    simp only [Memory.wfFrom, Bool.and_eq_true, decide_eq_true_eq] at h ⊢
    exact ⟨⟨⟨by omega, h.1.1.2⟩, h.1.2⟩, h.2⟩

/-- A write inside the address space keeps the canonical form. -/
theorem Memory.write_wfFrom {m : Memory} {lo a : Nat} (b : Byte) (h : m.wfFrom lo = true)
    (hlo : lo ≤ a) (ha : a < Config.memSize) : (m.write a b).wfFrom lo = true := by
  induction m generalizing lo with
  | nil => by_cases hb : b = Memory.blank a <;> simp [Memory.write, Memory.wfFrom, hb, hlo, ha]
  | cons p rest ih =>
    obtain ⟨a', b'⟩ := p
    simp only [Memory.wfFrom, Bool.and_eq_true, decide_eq_true_eq] at h
    obtain ⟨⟨⟨h1, h2⟩, h3⟩, h4⟩ := h
    simp only [Memory.write]
    by_cases hlt : a < a'
    · by_cases hb : b = Memory.blank a
      · simp [hlt, hb, Memory.wfFrom, h1, h2, h3, h4]
      · simp [hlt, hb, Memory.wfFrom, hlo, ha, h2, h3, h4]
    · by_cases he : a = a'
      · subst he
        by_cases hb : b = Memory.blank a
        · simpa [hb] using Memory.wfFrom_mono h4 (by omega)
        · simp [hb, Memory.wfFrom, h1, h2, h4]
      · have := ih h4 (by omega)
        simp [hlt, he, Memory.wfFrom, h1, h2, h3, this]

theorem Memory.write_wf {m : Memory} {a : Nat} (b : Byte) (h : m.wf = true)
    (ha : a < Config.memSize) : (m.write a b).wf = true :=
  Memory.write_wfFrom b h (Nat.zero_le a) ha

/-- Reading elsewhere is not affected by a write. -/
theorem Memory.read_write_other (m : Memory) {a a' : Nat} (b : Byte) (h : a' ≠ a) :
    (m.write a b).read a' = m.read a' := by
  induction m with
  | nil => by_cases hb : b = Memory.blank a <;> simp [Memory.write, Memory.read, hb, h]
  | cons p rest ih =>
    obtain ⟨c, d⟩ := p
    simp only [Memory.write]
    by_cases hlt : a < c
    · by_cases hb : b = Memory.blank a <;> simp [hlt, hb, Memory.read, h]
    · by_cases he : a = c
      · subst he
        by_cases hb : b = Memory.blank a <;> simp [hb, Memory.read, h]
      · simp [hlt, he, Memory.read, ih]

/-- Reading where a canonical memory was written gives the byte written. -/
theorem Memory.read_write_same {m : Memory} {lo : Nat} (a : Nat) (b : Byte)
    (h : m.wfFrom lo = true) : (m.write a b).read a = b := by
  induction m generalizing lo with
  | nil => by_cases hb : b = Memory.blank a <;> simp [Memory.write, Memory.read, hb]
  | cons p rest ih =>
    obtain ⟨a', b'⟩ := p
    have h' := h
    simp only [Memory.wfFrom, Bool.and_eq_true, decide_eq_true_eq] at h
    simp only [Memory.write]
    by_cases hlt : a < a'
    · by_cases hb : b = Memory.blank a
      · have hne : a ≠ a' := by omega
        simp [hlt, hb, Memory.read, hne, Memory.read_below h.2 (show a < a' + 1 by omega)]
      · simp [hlt, hb, Memory.read]
    · by_cases he : a = a'
      · subst he
        by_cases hb : b = Memory.blank a
        · simp [hb, Memory.read_below h.2 (Nat.lt_succ_self a)]
        · simp [hb, Memory.read]
      · simp [hlt, he, Memory.read, ih h.2]

/-! ### Byte sequences -/

@[simp] theorem Memory.readBytes_length (m : Memory) (a n : Nat) :
    (m.readBytes a n).length = n := by
  induction n generalizing a with
  | zero => rfl
  | succ n ih => simp [Memory.readBytes, ih]

theorem Memory.getElem?_readBytes (m : Memory) (a : Nat) {n k : Nat} (hk : k < n) :
    (m.readBytes a n)[k]? = some (m.read (a + k)) := by
  induction n generalizing a k with
  | zero => omega
  | succ n ih =>
    cases k with
    | zero => simp [Memory.readBytes]
    | succ k =>
      simp only [Memory.readBytes, List.getElem?_cons_succ]
      rw [ih (a + 1) (by omega)]
      congr 2
      omega

theorem Memory.writeBytes_wf {m : Memory} {a : Nat} {bytes : List Byte} (h : m.wf = true)
    (ha : a + bytes.length ≤ Config.memSize) : (m.writeBytes a bytes).wf = true := by
  induction bytes generalizing m a with
  | nil => exact h
  | cons b rest ih =>
    simp only [List.length_cons] at ha
    exact ih (Memory.write_wf b h (by omega)) (by omega)

/-- A byte outside the stored ones reads as before. -/
theorem Memory.read_writeBytes_outside (m : Memory) {a a' : Nat} {bytes : List Byte}
    (h : a' < a ∨ a + bytes.length ≤ a') : (m.writeBytes a bytes).read a' = m.read a' := by
  induction bytes generalizing m a with
  | nil => rfl
  | cons b rest ih =>
    simp only [List.length_cons] at h
    simp only [Memory.writeBytes]
    rw [ih _ (by omega), Memory.read_write_other _ _ (by omega)]

/-- Stored byte `k` reads back. -/
theorem Memory.read_writeBytes_inside {m : Memory} {a : Nat} {bytes : List Byte} {k : Nat} {b : Byte}
    (h : m.wf = true) (ha : a + bytes.length ≤ Config.memSize) (hk : bytes[k]? = some b) :
    (m.writeBytes a bytes).read (a + k) = b := by
  induction bytes generalizing m a k with
  | nil => simp at hk
  | cons c rest ih =>
    simp only [List.length_cons] at ha
    simp only [Memory.writeBytes]
    cases k with
    | zero =>
      simp only [List.getElem?_cons_zero, Option.some.injEq] at hk
      subst hk
      rw [Memory.read_writeBytes_outside _ (by omega), Nat.add_zero]
      exact Memory.read_write_same a c h
    | succ k =>
      rw [show a + (k + 1) = a + 1 + k by omega]
      exact ih (Memory.write_wf c h (by omega)) (by omega) (by simpa using hk)

end Sys2Proof.Machine
end

