-- ==== Sys2Proof/Laws/State.lean ====
section
/-! SUPPORT. The sizes as numbers, and one lemma per field of the state per update, each true by rfl. -/

namespace Sys2Proof.Machine

@[simp] theorem memSize_eq : Config.memSize = 4096 := rfl
@[simp] theorem progBase_eq : Config.progBase = 0x200 := rfl
@[simp] theorem loadMax_eq : loadMax = 3584 := rfl
@[simp] theorem State.withFetchWord_eq (s : State) (nbits w : Nat) :
    s.withFetchWord nbits w = s.placeWord (tableWord nbits w) := rfl

@[simp] theorem State.setReg_mem (s : State) (x : Reg) (b : Byte) : (s.setReg x b).mem = s.mem := rfl
@[simp] theorem State.setReg_v (s : State) (x : Reg) (b : Byte) : (s.setReg x b).v = s.v.set x.toNat b := rfl
@[simp] theorem State.setReg_i (s : State) (x : Reg) (b : Byte) : (s.setReg x b).i = s.i := rfl
@[simp] theorem State.setReg_pc (s : State) (x : Reg) (b : Byte) : (s.setReg x b).pc = s.pc := rfl
@[simp] theorem State.setReg_stack (s : State) (x : Reg) (b : Byte) : (s.setReg x b).stack = s.stack := rfl
@[simp] theorem State.setReg_sp (s : State) (x : Reg) (b : Byte) : (s.setReg x b).sp = s.sp := rfl
@[simp] theorem State.setReg_dt (s : State) (x : Reg) (b : Byte) : (s.setReg x b).dt = s.dt := rfl
@[simp] theorem State.setReg_st (s : State) (x : Reg) (b : Byte) : (s.setReg x b).st = s.st := rfl
@[simp] theorem State.setReg_fb (s : State) (x : Reg) (b : Byte) : (s.setReg x b).fb = s.fb := rfl
@[simp] theorem State.setReg_keys (s : State) (x : Reg) (b : Byte) : (s.setReg x b).keys = s.keys := rfl
@[simp] theorem State.setReg_rng (s : State) (x : Reg) (b : Byte) : (s.setReg x b).rng = s.rng := rfl
@[simp] theorem State.setReg_fault (s : State) (x : Reg) (b : Byte) : (s.setReg x b).fault = s.fault := rfl

@[simp] theorem State.setPc_mem (s : State) (w : Word) : (s.setPc w).mem = s.mem := rfl
@[simp] theorem State.setPc_v (s : State) (w : Word) : (s.setPc w).v = s.v := rfl
@[simp] theorem State.setPc_i (s : State) (w : Word) : (s.setPc w).i = s.i := rfl
@[simp] theorem State.setPc_pc (s : State) (w : Word) : (s.setPc w).pc = w := rfl
@[simp] theorem State.setPc_stack (s : State) (w : Word) : (s.setPc w).stack = s.stack := rfl
@[simp] theorem State.setPc_sp (s : State) (w : Word) : (s.setPc w).sp = s.sp := rfl
@[simp] theorem State.setPc_dt (s : State) (w : Word) : (s.setPc w).dt = s.dt := rfl
@[simp] theorem State.setPc_st (s : State) (w : Word) : (s.setPc w).st = s.st := rfl
@[simp] theorem State.setPc_fb (s : State) (w : Word) : (s.setPc w).fb = s.fb := rfl
@[simp] theorem State.setPc_keys (s : State) (w : Word) : (s.setPc w).keys = s.keys := rfl
@[simp] theorem State.setPc_rng (s : State) (w : Word) : (s.setPc w).rng = s.rng := rfl
@[simp] theorem State.setPc_fault (s : State) (w : Word) : (s.setPc w).fault = s.fault := rfl

@[simp] theorem State.setI_mem (s : State) (w : Word) : (s.setI w).mem = s.mem := rfl
@[simp] theorem State.setI_v (s : State) (w : Word) : (s.setI w).v = s.v := rfl
@[simp] theorem State.setI_i (s : State) (w : Word) : (s.setI w).i = w := rfl
@[simp] theorem State.setI_pc (s : State) (w : Word) : (s.setI w).pc = s.pc := rfl
@[simp] theorem State.setI_stack (s : State) (w : Word) : (s.setI w).stack = s.stack := rfl
@[simp] theorem State.setI_sp (s : State) (w : Word) : (s.setI w).sp = s.sp := rfl
@[simp] theorem State.setI_dt (s : State) (w : Word) : (s.setI w).dt = s.dt := rfl
@[simp] theorem State.setI_st (s : State) (w : Word) : (s.setI w).st = s.st := rfl
@[simp] theorem State.setI_fb (s : State) (w : Word) : (s.setI w).fb = s.fb := rfl
@[simp] theorem State.setI_keys (s : State) (w : Word) : (s.setI w).keys = s.keys := rfl
@[simp] theorem State.setI_rng (s : State) (w : Word) : (s.setI w).rng = s.rng := rfl
@[simp] theorem State.setI_fault (s : State) (w : Word) : (s.setI w).fault = s.fault := rfl

@[simp] theorem State.setDt_mem (s : State) (b : Byte) : (s.setDt b).mem = s.mem := rfl
@[simp] theorem State.setDt_v (s : State) (b : Byte) : (s.setDt b).v = s.v := rfl
@[simp] theorem State.setDt_i (s : State) (b : Byte) : (s.setDt b).i = s.i := rfl
@[simp] theorem State.setDt_pc (s : State) (b : Byte) : (s.setDt b).pc = s.pc := rfl
@[simp] theorem State.setDt_stack (s : State) (b : Byte) : (s.setDt b).stack = s.stack := rfl
@[simp] theorem State.setDt_sp (s : State) (b : Byte) : (s.setDt b).sp = s.sp := rfl
@[simp] theorem State.setDt_dt (s : State) (b : Byte) : (s.setDt b).dt = b := rfl
@[simp] theorem State.setDt_st (s : State) (b : Byte) : (s.setDt b).st = s.st := rfl
@[simp] theorem State.setDt_fb (s : State) (b : Byte) : (s.setDt b).fb = s.fb := rfl
@[simp] theorem State.setDt_keys (s : State) (b : Byte) : (s.setDt b).keys = s.keys := rfl
@[simp] theorem State.setDt_rng (s : State) (b : Byte) : (s.setDt b).rng = s.rng := rfl
@[simp] theorem State.setDt_fault (s : State) (b : Byte) : (s.setDt b).fault = s.fault := rfl

@[simp] theorem State.setSt_mem (s : State) (b : Byte) : (s.setSt b).mem = s.mem := rfl
@[simp] theorem State.setSt_v (s : State) (b : Byte) : (s.setSt b).v = s.v := rfl
@[simp] theorem State.setSt_i (s : State) (b : Byte) : (s.setSt b).i = s.i := rfl
@[simp] theorem State.setSt_pc (s : State) (b : Byte) : (s.setSt b).pc = s.pc := rfl
@[simp] theorem State.setSt_stack (s : State) (b : Byte) : (s.setSt b).stack = s.stack := rfl
@[simp] theorem State.setSt_sp (s : State) (b : Byte) : (s.setSt b).sp = s.sp := rfl
@[simp] theorem State.setSt_dt (s : State) (b : Byte) : (s.setSt b).dt = s.dt := rfl
@[simp] theorem State.setSt_st (s : State) (b : Byte) : (s.setSt b).st = b := rfl
@[simp] theorem State.setSt_fb (s : State) (b : Byte) : (s.setSt b).fb = s.fb := rfl
@[simp] theorem State.setSt_keys (s : State) (b : Byte) : (s.setSt b).keys = s.keys := rfl
@[simp] theorem State.setSt_rng (s : State) (b : Byte) : (s.setSt b).rng = s.rng := rfl
@[simp] theorem State.setSt_fault (s : State) (b : Byte) : (s.setSt b).fault = s.fault := rfl

@[simp] theorem State.setV_mem (s : State) (v : Vector Byte 16) : (s.setV v).mem = s.mem := rfl
@[simp] theorem State.setV_v (s : State) (v : Vector Byte 16) : (s.setV v).v = v := rfl
@[simp] theorem State.setV_i (s : State) (v : Vector Byte 16) : (s.setV v).i = s.i := rfl
@[simp] theorem State.setV_pc (s : State) (v : Vector Byte 16) : (s.setV v).pc = s.pc := rfl
@[simp] theorem State.setV_stack (s : State) (v : Vector Byte 16) : (s.setV v).stack = s.stack := rfl
@[simp] theorem State.setV_sp (s : State) (v : Vector Byte 16) : (s.setV v).sp = s.sp := rfl
@[simp] theorem State.setV_dt (s : State) (v : Vector Byte 16) : (s.setV v).dt = s.dt := rfl
@[simp] theorem State.setV_st (s : State) (v : Vector Byte 16) : (s.setV v).st = s.st := rfl
@[simp] theorem State.setV_fb (s : State) (v : Vector Byte 16) : (s.setV v).fb = s.fb := rfl
@[simp] theorem State.setV_keys (s : State) (v : Vector Byte 16) : (s.setV v).keys = s.keys := rfl
@[simp] theorem State.setV_rng (s : State) (v : Vector Byte 16) : (s.setV v).rng = s.rng := rfl
@[simp] theorem State.setV_fault (s : State) (v : Vector Byte 16) : (s.setV v).fault = s.fault := rfl

@[simp] theorem State.setMem_mem (s : State) (m : Memory) : (s.setMem m).mem = m := rfl
@[simp] theorem State.setMem_v (s : State) (m : Memory) : (s.setMem m).v = s.v := rfl
@[simp] theorem State.setMem_i (s : State) (m : Memory) : (s.setMem m).i = s.i := rfl
@[simp] theorem State.setMem_pc (s : State) (m : Memory) : (s.setMem m).pc = s.pc := rfl
@[simp] theorem State.setMem_stack (s : State) (m : Memory) : (s.setMem m).stack = s.stack := rfl
@[simp] theorem State.setMem_sp (s : State) (m : Memory) : (s.setMem m).sp = s.sp := rfl
@[simp] theorem State.setMem_dt (s : State) (m : Memory) : (s.setMem m).dt = s.dt := rfl
@[simp] theorem State.setMem_st (s : State) (m : Memory) : (s.setMem m).st = s.st := rfl
@[simp] theorem State.setMem_fb (s : State) (m : Memory) : (s.setMem m).fb = s.fb := rfl
@[simp] theorem State.setMem_keys (s : State) (m : Memory) : (s.setMem m).keys = s.keys := rfl
@[simp] theorem State.setMem_rng (s : State) (m : Memory) : (s.setMem m).rng = s.rng := rfl
@[simp] theorem State.setMem_fault (s : State) (m : Memory) : (s.setMem m).fault = s.fault := rfl

@[simp] theorem State.setFb_mem (s : State) (fb : Framebuffer) : (s.setFb fb).mem = s.mem := rfl
@[simp] theorem State.setFb_v (s : State) (fb : Framebuffer) : (s.setFb fb).v = s.v := rfl
@[simp] theorem State.setFb_i (s : State) (fb : Framebuffer) : (s.setFb fb).i = s.i := rfl
@[simp] theorem State.setFb_pc (s : State) (fb : Framebuffer) : (s.setFb fb).pc = s.pc := rfl
@[simp] theorem State.setFb_stack (s : State) (fb : Framebuffer) : (s.setFb fb).stack = s.stack := rfl
@[simp] theorem State.setFb_sp (s : State) (fb : Framebuffer) : (s.setFb fb).sp = s.sp := rfl
@[simp] theorem State.setFb_dt (s : State) (fb : Framebuffer) : (s.setFb fb).dt = s.dt := rfl
@[simp] theorem State.setFb_st (s : State) (fb : Framebuffer) : (s.setFb fb).st = s.st := rfl
@[simp] theorem State.setFb_fb (s : State) (fb : Framebuffer) : (s.setFb fb).fb = fb := rfl
@[simp] theorem State.setFb_keys (s : State) (fb : Framebuffer) : (s.setFb fb).keys = s.keys := rfl
@[simp] theorem State.setFb_rng (s : State) (fb : Framebuffer) : (s.setFb fb).rng = s.rng := rfl
@[simp] theorem State.setFb_fault (s : State) (fb : Framebuffer) : (s.setFb fb).fault = s.fault := rfl

@[simp] theorem State.setRng_mem (s : State) (r : RandomSource) : (s.setRng r).mem = s.mem := rfl
@[simp] theorem State.setRng_v (s : State) (r : RandomSource) : (s.setRng r).v = s.v := rfl
@[simp] theorem State.setRng_i (s : State) (r : RandomSource) : (s.setRng r).i = s.i := rfl
@[simp] theorem State.setRng_pc (s : State) (r : RandomSource) : (s.setRng r).pc = s.pc := rfl
@[simp] theorem State.setRng_stack (s : State) (r : RandomSource) : (s.setRng r).stack = s.stack := rfl
@[simp] theorem State.setRng_sp (s : State) (r : RandomSource) : (s.setRng r).sp = s.sp := rfl
@[simp] theorem State.setRng_dt (s : State) (r : RandomSource) : (s.setRng r).dt = s.dt := rfl
@[simp] theorem State.setRng_st (s : State) (r : RandomSource) : (s.setRng r).st = s.st := rfl
@[simp] theorem State.setRng_fb (s : State) (r : RandomSource) : (s.setRng r).fb = s.fb := rfl
@[simp] theorem State.setRng_keys (s : State) (r : RandomSource) : (s.setRng r).keys = s.keys := rfl
@[simp] theorem State.setRng_rng (s : State) (r : RandomSource) : (s.setRng r).rng = r := rfl
@[simp] theorem State.setRng_fault (s : State) (r : RandomSource) : (s.setRng r).fault = s.fault := rfl

@[simp] theorem State.setStack_mem (s : State) (k : Vector Word 16) (p : Fin 17) : (s.setStack k p).mem = s.mem := rfl
@[simp] theorem State.setStack_v (s : State) (k : Vector Word 16) (p : Fin 17) : (s.setStack k p).v = s.v := rfl
@[simp] theorem State.setStack_i (s : State) (k : Vector Word 16) (p : Fin 17) : (s.setStack k p).i = s.i := rfl
@[simp] theorem State.setStack_pc (s : State) (k : Vector Word 16) (p : Fin 17) : (s.setStack k p).pc = s.pc := rfl
@[simp] theorem State.setStack_stack (s : State) (k : Vector Word 16) (p : Fin 17) : (s.setStack k p).stack = k := rfl
@[simp] theorem State.setStack_sp (s : State) (k : Vector Word 16) (p : Fin 17) : (s.setStack k p).sp = p := rfl
@[simp] theorem State.setStack_dt (s : State) (k : Vector Word 16) (p : Fin 17) : (s.setStack k p).dt = s.dt := rfl
@[simp] theorem State.setStack_st (s : State) (k : Vector Word 16) (p : Fin 17) : (s.setStack k p).st = s.st := rfl
@[simp] theorem State.setStack_fb (s : State) (k : Vector Word 16) (p : Fin 17) : (s.setStack k p).fb = s.fb := rfl
@[simp] theorem State.setStack_keys (s : State) (k : Vector Word 16) (p : Fin 17) : (s.setStack k p).keys = s.keys := rfl
@[simp] theorem State.setStack_rng (s : State) (k : Vector Word 16) (p : Fin 17) : (s.setStack k p).rng = s.rng := rfl
@[simp] theorem State.setStack_fault (s : State) (k : Vector Word 16) (p : Fin 17) : (s.setStack k p).fault = s.fault := rfl

@[simp] theorem State.setKey_mem (s : State) (k : Fin 16) (b : Bool) : (s.setKey k b).mem = s.mem := rfl
@[simp] theorem State.setKey_v (s : State) (k : Fin 16) (b : Bool) : (s.setKey k b).v = s.v := rfl
@[simp] theorem State.setKey_i (s : State) (k : Fin 16) (b : Bool) : (s.setKey k b).i = s.i := rfl
@[simp] theorem State.setKey_pc (s : State) (k : Fin 16) (b : Bool) : (s.setKey k b).pc = s.pc := rfl
@[simp] theorem State.setKey_stack (s : State) (k : Fin 16) (b : Bool) : (s.setKey k b).stack = s.stack := rfl
@[simp] theorem State.setKey_sp (s : State) (k : Fin 16) (b : Bool) : (s.setKey k b).sp = s.sp := rfl
@[simp] theorem State.setKey_dt (s : State) (k : Fin 16) (b : Bool) : (s.setKey k b).dt = s.dt := rfl
@[simp] theorem State.setKey_st (s : State) (k : Fin 16) (b : Bool) : (s.setKey k b).st = s.st := rfl
@[simp] theorem State.setKey_fb (s : State) (k : Fin 16) (b : Bool) : (s.setKey k b).fb = s.fb := rfl
@[simp] theorem State.setKey_keys (s : State) (k : Fin 16) (b : Bool) : (s.setKey k b).keys = s.keys.set k.val b := rfl
@[simp] theorem State.setKey_rng (s : State) (k : Fin 16) (b : Bool) : (s.setKey k b).rng = s.rng := rfl
@[simp] theorem State.setKey_fault (s : State) (k : Fin 16) (b : Bool) : (s.setKey k b).fault = s.fault := rfl

@[simp] theorem State.prologue_mem (s : State) : s.prologue.mem = s.mem := rfl
@[simp] theorem State.prologue_v (s : State) : s.prologue.v = s.v := rfl
@[simp] theorem State.prologue_i (s : State) : s.prologue.i = s.i := rfl
@[simp] theorem State.prologue_pc (s : State) : s.prologue.pc = s.pc + 2 := rfl
@[simp] theorem State.prologue_stack (s : State) : s.prologue.stack = s.stack := rfl
@[simp] theorem State.prologue_sp (s : State) : s.prologue.sp = s.sp := rfl
@[simp] theorem State.prologue_dt (s : State) : s.prologue.dt = decay s.dt := rfl
@[simp] theorem State.prologue_st (s : State) : s.prologue.st = decay s.st := rfl
@[simp] theorem State.prologue_fb (s : State) : s.prologue.fb = s.fb := rfl
@[simp] theorem State.prologue_keys (s : State) : s.prologue.keys = s.keys := rfl
@[simp] theorem State.prologue_rng (s : State) : s.prologue.rng = s.rng := rfl
@[simp] theorem State.prologue_fault (s : State) : s.prologue.fault = s.fault := rfl

@[simp] theorem State.latch_mem (s : State) (f : Fault) (u : State) : (s.latch f u).mem = u.mem := rfl
@[simp] theorem State.latch_v (s : State) (f : Fault) (u : State) : (s.latch f u).v = u.v := rfl
@[simp] theorem State.latch_i (s : State) (f : Fault) (u : State) : (s.latch f u).i = u.i := rfl
@[simp] theorem State.latch_pc (s : State) (f : Fault) (u : State) : (s.latch f u).pc = u.pc := rfl
@[simp] theorem State.latch_stack (s : State) (f : Fault) (u : State) : (s.latch f u).stack = u.stack := rfl
@[simp] theorem State.latch_sp (s : State) (f : Fault) (u : State) : (s.latch f u).sp = u.sp := rfl
@[simp] theorem State.latch_dt (s : State) (f : Fault) (u : State) : (s.latch f u).dt = u.dt := rfl
@[simp] theorem State.latch_st (s : State) (f : Fault) (u : State) : (s.latch f u).st = u.st := rfl
@[simp] theorem State.latch_fb (s : State) (f : Fault) (u : State) : (s.latch f u).fb = u.fb := rfl
@[simp] theorem State.latch_keys (s : State) (f : Fault) (u : State) : (s.latch f u).keys = s.keys := rfl
@[simp] theorem State.latch_rng (s : State) (f : Fault) (u : State) : (s.latch f u).rng = u.rng := rfl
@[simp] theorem State.latch_fault (s : State) (f : Fault) (u : State) : (s.latch f u).fault = some f := rfl

end Sys2Proof.Machine
end

