-- ==== Sys2Proof/Laws/Ops.lean ====
section
/-! SUPPORT. One lemma per shared operation: registers, stack, accesses, skips, keys, fetch, and the whole step. -/

namespace Sys2Proof.Machine

/-! ### Registers -/

theorem toNat_ne_of_ne {x y : Reg} (h : x ≠ y) : x.toNat ≠ y.toNat := fun e => h (BitVec.eq_of_toNat_eq e)

theorem State.reg_setReg (s : State) (x y : Reg) (b : Byte) :
    (s.setReg x b).reg y = if x = y then b else s.reg y := by
  by_cases h : x = y
  · subst h; simp [State.reg]
  · simp [State.reg, h, toNat_ne_of_ne h]

@[simp] theorem State.reg_setReg_same (s : State) (x : Reg) (b : Byte) : (s.setReg x b).reg x = b := by
  simp [State.reg_setReg]

theorem State.reg_setReg_other (s : State) {x y : Reg} (b : Byte) (h : x ≠ y) :
    (s.setReg x b).reg y = s.reg y := by
  simp [State.reg_setReg, h]

@[simp] theorem State.reg_setPc (s : State) (w : Word) (x : Reg) : (s.setPc w).reg x = s.reg x := rfl
@[simp] theorem State.reg_setI (s : State) (w : Word) (x : Reg) : (s.setI w).reg x = s.reg x := rfl
@[simp] theorem State.reg_setDt (s : State) (b : Byte) (x : Reg) : (s.setDt b).reg x = s.reg x := rfl
@[simp] theorem State.reg_setSt (s : State) (b : Byte) (x : Reg) : (s.setSt b).reg x = s.reg x := rfl
@[simp] theorem State.reg_setMem (s : State) (m : Memory) (x : Reg) : (s.setMem m).reg x = s.reg x := rfl
@[simp] theorem State.reg_setFb (s : State) (fb : Framebuffer) (x : Reg) : (s.setFb fb).reg x = s.reg x := rfl
@[simp] theorem State.reg_setRng (s : State) (r : RandomSource) (x : Reg) : (s.setRng r).reg x = s.reg x := rfl
@[simp] theorem State.reg_setStack (s : State) (k : Vector Word 16) (p : Fin 17) (x : Reg) :
    (s.setStack k p).reg x = s.reg x := rfl
@[simp] theorem State.reg_setKey (s : State) (k : Fin 16) (b : Bool) (x : Reg) :
    (s.setKey k b).reg x = s.reg x := rfl

/-- A result and a flag: VF holds the flag, even when it is the destination (R164). -/
theorem State.reg_setResultFlag (s : State) (x y : Reg) (b : Byte) (flag : Bool) :
    (s.setResultFlag x b flag).reg y =
      if flagReg = y then flagByte flag else if x = y then b else s.reg y := by
  simp [State.setResultFlag, State.setFlag, State.reg_setReg]

/-- Loading a run of registers writes exactly those it covers. -/
theorem getElem_setRegsFrom (v : Vector Byte 16) (k : Nat) (bytes : List Byte) (y : Nat) (hy : y < 16) :
    (setRegsFrom v k bytes)[y] =
      if h : k ≤ y ∧ y - k < bytes.length then bytes[y - k] else v[y] := by
  induction bytes generalizing v k with
  | nil => simp [setRegsFrom]
  | cons b rest ih =>
    simp only [setRegsFrom, ih, List.length_cons]
    by_cases h1 : k = y
    · subst h1; simp
    · by_cases h2 : k + 1 ≤ y
      · have h3 : y - k = y - (k + 1) + 1 := by omega
        by_cases h4 : y - (k + 1) < rest.length
        · simp [h2, h3, h4, show k ≤ y by omega]
        · simp [h2, h3, h4, h1]
      · simp [h2, show ¬ k ≤ y by omega, h1]

/-- The stored values of V0..Vx. -/
theorem State.regRange_length (s : State) (x : Reg) : (s.regRange x).length = x.toNat + 1 := by
  have := x.isLt
  simp [State.regRange, rangeCount]
  omega

theorem State.getElem?_regRange (s : State) (x : Reg) {k : Nat} (hk : k ≤ x.toNat) :
    (s.regRange x)[k]? = some (s.reg (BitVec.ofNat 4 k)) := by
  have hx := x.isLt
  have h1 : (BitVec.ofNat 4 k).toNat = k := by simp; omega
  have h16 : k < 16 := by omega
  simp [State.regRange, rangeCount, State.reg, h16, Nat.lt_succ_of_le hk,
    Nat.mod_eq_of_lt h16]

/-! ### Accesses -/

theorem accessOk_iff {a n : Nat} : accessOk a n = true ↔ n = 0 ∨ a + n ≤ 4096 := by simp [accessOk]

theorem accessOk_eq_false_iff {a n : Nat} : accessOk a n = false ↔ n ≠ 0 ∧ 4096 < a + n := by
  rw [← Bool.not_eq_true, accessOk_iff]; omega

/-- A read goes on exactly when every address is a cell. -/
theorem State.withRead_ok (s : State) {a n : Nat} (k : List Byte → Result) (h : accessOk a n = true) :
    s.withRead a n k = k (s.mem.readBytes a n) := by simp [State.withRead, h]

theorem State.withRead_fault (s : State) {a n : Nat} (k : List Byte → Result) (h : accessOk a n = false) :
    s.withRead a n k = .fault (.memoryOutOfRange (firstOutOfRange a)) := by
  simp [State.withRead, h, raise]

/-- A read either goes on with the bytes or faults: the one inversion lemma of a read. -/
theorem State.withRead_next {s t : State} {a n : Nat} {k : List Byte → Result}
    (h : s.withRead a n k = .next t) :
    accessOk a n = true ∧ k (s.mem.readBytes a n) = .next t := by
  unfold State.withRead at h
  split at h
  · exact ⟨‹_›, h⟩
  · cases h

theorem State.memWrite_ok (s : State) {a : Nat} {bytes : List Byte} (h : accessOk a bytes.length = true) :
    s.memWrite a bytes = .next (s.setMem (s.mem.writeBytes a bytes)) := by simp [State.memWrite, h]

theorem State.memWrite_fault (s : State) {a : Nat} {bytes : List Byte}
    (h : accessOk a bytes.length = false) :
    s.memWrite a bytes = .fault (.memoryOutOfRange (firstOutOfRange a)) := by
  simp [State.memWrite, h, raise]

theorem State.memWrite_next {s t : State} {a : Nat} {bytes : List Byte}
    (h : s.memWrite a bytes = .next t) :
    accessOk a bytes.length = true ∧ t = s.setMem (s.mem.writeBytes a bytes) := by
  unfold State.memWrite at h
  split at h
  · cases h; exact ⟨‹_›, rfl⟩
  · cases h

/-! ### Stack -/

theorem State.push_next {s t : State} {w : Word} {k : State → Result} (h : s.push w k = .next t) :
    ∃ _hs : s.sp.val < 16,
      k (s.setStack (s.stack.set s.sp.val w) ⟨s.sp.val + 1, by omega⟩) = .next t := by
  unfold State.push at h
  split at h
  · exact ⟨‹_›, h⟩
  · cases h

theorem State.pop_next {s t : State} {k : State → Word → Result} (h : s.pop k = .next t) :
    ∃ _hs : s.sp.val ≠ 0,
      k (s.setStack s.stack ⟨s.sp.val - 1, by omega⟩) (s.stack[s.sp.val - 1]'(by omega)) = .next t := by
  unfold State.pop at h
  split at h
  · cases h
  · exact ⟨‹_›, h⟩

theorem State.push_ok (s : State) (w : Word) (k : State → Result) (h : s.sp.val < 16) :
    s.push w k = k (s.setStack (s.stack.set s.sp.val w) ⟨s.sp.val + 1, by omega⟩) := by
  simp [State.push, h]

theorem State.pop_ok (s : State) (k : State → Word → Result) (h : s.sp.val ≠ 0) :
    s.pop k = k (s.setStack s.stack ⟨s.sp.val - 1, by omega⟩) (s.stack[s.sp.val - 1]'(by omega)) := by
  simp [State.pop, h]

/-! ### Skips and keys -/

/-- A skip moves PC by 2 or changes nothing (R139). -/
theorem State.skipIf_eq (s : State) (c : Bool) : s.skipIf c = s.setPc (if c then s.pc + 2 else s.pc) := by
  cases c <;> rfl

theorem State.withKey_next {s t : State} {index : Byte} {k : Bool → Result}
    (h : s.withKey index k = .next t) :
    index.toNat ≤ 15 ∧ k (s.isPressed index.toNat) = .next t := by
  unfold State.withKey at h
  split at h
  · cases h
  · exact ⟨by omega, h⟩

/-! ### The step -/

/-- The decay of a timer, as a number (R114). -/
theorem decay_toNat (t : Byte) : (decay t).toNat = t.toNat - 1 := by revert t; decide

theorem State.fetch_ok {s : State} (h : s.pc.toNat + 1 < 4096) : s.fetch = .ok s.wordAtPc := by
  simp [State.fetch, h, State.wordAtPc, wordOfBytes, State.byteAt]

theorem State.fetch_error {s : State} (h : ¬ s.pc.toNat + 1 < 4096) :
    s.fetch = .error (.memoryOutOfRange (firstOutOfRange s.pc.toNat)) := by
  simp only [State.fetch, Config.memSize, h, if_false]

/-- All that a completed step can be: no latched fault, a fetched and decoded word, its execute phase after the prologue (R118). -/
theorem step_next {s t : State} (h : step s = .next t) :
    s.fault = none ∧ s.pc.toNat + 1 < 4096 ∧
      ∃ i, decodeWord s.wordAtPc = some i ∧ exec i s.prologue = .next t := by
  unfold step at h
  split at h
  · cases h
  · rename_i hf
    by_cases hp : s.pc.toNat + 1 < 4096
    · rw [State.fetch_ok hp] at h
      simp only [State.dispatch] at h
      split at h
      · exact ⟨hf, hp, _, ‹_›, h⟩
      · cases h
    · rw [State.fetch_error hp] at h
      cases h

/-- The step of a fetched and decoded word (R118). -/
theorem step_exec {s : State} {i : Instr} (hf : s.fault = none) (hp : s.pc.toNat + 1 < 4096)
    (hd : decodeWord s.wordAtPc = some i) : step s = exec i s.prologue := by
  simp [step, hf, State.fetch_ok hp, State.dispatch, hd]

end Sys2Proof.Machine
end

