-- ==== Sys2Proof/Laws/PerInstr.lean ====
section
/-! SUPPORT. The per-instruction family TableRow: an instruction's word has the fixed bits of its own opcode-table row (R94, R95). -/

namespace Sys2Proof.Laws.TableRow

/-- The encoded word matches the instruction's row. -/
def Statement (i : Instr) : Prop := i.row.matches (encode i) = true

theorem cls : Statement (.cls) := by
  exact OpcodeRow.matches_of_mask (by decide)

theorem ret : Statement (.ret) := by
  exact OpcodeRow.matches_of_mask (by decide)

theorem jp (nnn : Addr12) : Statement (.jp nnn) := by
  exact OpcodeRow.matches_of_mask (nibbleAddr_mask _ nnn)

theorem call (nnn : Addr12) : Statement (.call nnn) := by
  exact OpcodeRow.matches_of_mask (nibbleAddr_mask _ nnn)

theorem seImm (x : Reg) (kk : Byte) : Statement (.seImm x kk) := by
  exact OpcodeRow.matches_of_mask ((congrArg (· &&& 0xF000#16) (nibbleByte_eq_nibbleAddr _ x kk)).trans (nibbleAddr_mask _ _))

theorem sneImm (x : Reg) (kk : Byte) : Statement (.sneImm x kk) := by
  exact OpcodeRow.matches_of_mask ((congrArg (· &&& 0xF000#16) (nibbleByte_eq_nibbleAddr _ x kk)).trans (nibbleAddr_mask _ _))

theorem seReg (x y : Reg) : Statement (.seReg x y) := by
  exact OpcodeRow.matches_of_mask (nibbles_mask _ x y _)

theorem sneReg (x y : Reg) : Statement (.sneReg x y) := by
  exact OpcodeRow.matches_of_mask (nibbles_mask _ x y _)

theorem ldImm (x : Reg) (kk : Byte) : Statement (.ldImm x kk) := by
  exact OpcodeRow.matches_of_mask ((congrArg (· &&& 0xF000#16) (nibbleByte_eq_nibbleAddr _ x kk)).trans (nibbleAddr_mask _ _))

theorem addImm (x : Reg) (kk : Byte) : Statement (.addImm x kk) := by
  exact OpcodeRow.matches_of_mask ((congrArg (· &&& 0xF000#16) (nibbleByte_eq_nibbleAddr _ x kk)).trans (nibbleAddr_mask _ _))

theorem ldReg (x y : Reg) : Statement (.ldReg x y) := by
  exact OpcodeRow.matches_of_mask (nibbles_mask _ x y _)

theorem or (x y : Reg) : Statement (.or x y) := by
  exact OpcodeRow.matches_of_mask (nibbles_mask _ x y _)

theorem and (x y : Reg) : Statement (.and x y) := by
  exact OpcodeRow.matches_of_mask (nibbles_mask _ x y _)

theorem xor (x y : Reg) : Statement (.xor x y) := by
  exact OpcodeRow.matches_of_mask (nibbles_mask _ x y _)

theorem addReg (x y : Reg) : Statement (.addReg x y) := by
  exact OpcodeRow.matches_of_mask (nibbles_mask _ x y _)

theorem sub (x y : Reg) : Statement (.sub x y) := by
  exact OpcodeRow.matches_of_mask (nibbles_mask _ x y _)

theorem subn (x y : Reg) : Statement (.subn x y) := by
  exact OpcodeRow.matches_of_mask (nibbles_mask _ x y _)

theorem shr (x y : Reg) : Statement (.shr x y) := by
  exact OpcodeRow.matches_of_mask (nibbles_mask _ x y _)

theorem shl (x y : Reg) : Statement (.shl x y) := by
  exact OpcodeRow.matches_of_mask (nibbles_mask _ x y _)

theorem ldI (nnn : Addr12) : Statement (.ldI nnn) := by
  exact OpcodeRow.matches_of_mask (nibbleAddr_mask _ nnn)

theorem jpV0 (nnn : Addr12) : Statement (.jpV0 nnn) := by
  exact OpcodeRow.matches_of_mask (nibbleAddr_mask _ nnn)

theorem rnd (x : Reg) (kk : Byte) : Statement (.rnd x kk) := by
  exact OpcodeRow.matches_of_mask ((congrArg (· &&& 0xF000#16) (nibbleByte_eq_nibbleAddr _ x kk)).trans (nibbleAddr_mask _ _))

theorem drw (x y : Reg) (n : Nibble) : Statement (.drw x y n) := by
  exact OpcodeRow.matches_of_mask ((congrArg (· &&& 0xF000#16) (nibbles_eq_nibbleAddr _ x y n)).trans (nibbleAddr_mask _ _))

theorem skp (x : Reg) : Statement (.skp x) := by
  exact OpcodeRow.matches_of_mask (nibbleByte_mask _ x _)

theorem sknp (x : Reg) : Statement (.sknp x) := by
  exact OpcodeRow.matches_of_mask (nibbleByte_mask _ x _)

theorem ldVxDt (x : Reg) : Statement (.ldVxDt x) := by
  exact OpcodeRow.matches_of_mask (nibbleByte_mask _ x _)

theorem ldVxK (x : Reg) : Statement (.ldVxK x) := by
  exact OpcodeRow.matches_of_mask (nibbleByte_mask _ x _)

theorem ldDt (x : Reg) : Statement (.ldDt x) := by
  exact OpcodeRow.matches_of_mask (nibbleByte_mask _ x _)

theorem ldSt (x : Reg) : Statement (.ldSt x) := by
  exact OpcodeRow.matches_of_mask (nibbleByte_mask _ x _)

theorem addI (x : Reg) : Statement (.addI x) := by
  exact OpcodeRow.matches_of_mask (nibbleByte_mask _ x _)

theorem ldF (x : Reg) : Statement (.ldF x) := by
  exact OpcodeRow.matches_of_mask (nibbleByte_mask _ x _)

theorem ldB (x : Reg) : Statement (.ldB x) := by
  exact OpcodeRow.matches_of_mask (nibbleByte_mask _ x _)

theorem ldStore (x : Reg) : Statement (.ldStore x) := by
  exact OpcodeRow.matches_of_mask (nibbleByte_mask _ x _)

theorem ldLoad (x : Reg) : Statement (.ldLoad x) := by
  exact OpcodeRow.matches_of_mask (nibbleByte_mask _ x _)

end Sys2Proof.Laws.TableRow
end

