-- ==== Sys2Proof/Laws/Random.lean ====
section
/-! SUPPORT. The laws of the generator: the recurrence of the seeding, and the carry correction of a draw as exact division (R201, R202). -/

namespace Sys2Proof.Machine

/-- Each word of the seeding comes from the third and the second word before it (R201). -/
theorem seedTail_getElem? (q3 q2 q1 : Word32) (k count n : Nat) (hn : n < count) :
    ∃ a b, (q3 :: q2 :: q1 :: seedTail q3 q2 q1 k count)[n]? = some a ∧
      (q3 :: q2 :: q1 :: seedTail q3 q2 q1 k count)[n + 1]? = some b ∧
      (q3 :: q2 :: q1 :: seedTail q3 q2 q1 k count)[n + 3]? =
        some (a ^^^ b ^^^ cmwcPhi ^^^ BitVec.ofNat 32 (k + n)) := by
  induction n generalizing q3 q2 q1 k count with
  | zero =>
    cases count with
    | zero => omega
    | succ c => exact ⟨q3, q2, by simp, by simp, by simp [seedTail]⟩
  | succ n ih =>
    cases count with
    | zero => omega
    | succ c =>
      obtain ⟨a, b, h1, h2, h3⟩ :=
        ih q2 q1 (q3 ^^^ q2 ^^^ cmwcPhi ^^^ BitVec.ofNat 32 k) (k + 1) c (by omega)
      refine ⟨a, b, by simpa [seedTail] using h1, by simpa [seedTail] using h2, ?_⟩
      rw [show k + (n + 1) = k + 1 + n by omega]
      simpa [seedTail] using h3

/-- The carry correction divides the product exactly by 2^32 - 1 (R202). -/
theorem drawCarry_exact (q c : Word32) :
    18782 * q.toNat + c.toNat =
      (drawCarry (drawProduct q c)).2.toNat * (2 ^ 32 - 1) +
        (drawCarry (drawProduct q c)).1.toNat := by
  have hq := q.isLt
  have hc := c.isLt
  simp only [drawCarry, drawProduct, show cmwcMultiplier = 18782 from rfl]
  generalize ht : 18782 * q.toNat + c.toNat = t
  have hb : t / 2 ^ 32 < 18783 := by omega
  have hd : t = 2 ^ 32 * (t / 2 ^ 32) + t % 2 ^ 32 := (Nat.div_add_mod t _).symm
  have e1 : (BitVec.ofNat 32 (t / 2 ^ 32)).toNat = t / 2 ^ 32 := by
    rw [BitVec.toNat_ofNat]; omega
  have e2 : (BitVec.ofNat 32 t).toNat = t % 2 ^ 32 := by simp
  split
  · rename_i h
    rw [BitVec.lt_def, BitVec.toNat_add, e1, e2] at h
    rw [BitVec.toNat_add, BitVec.toNat_add, BitVec.toNat_add, e1, e2,
      show (1 : BitVec 32).toNat = 1 from rfl]
    generalize t / 2 ^ 32 = b at *
    generalize t % 2 ^ 32 = d at *
    have : (b + d) % 2 ^ 32 = b + d - 2 ^ 32 := by omega
    have : (b + 1) % 2 ^ 32 = b + 1 := by omega
    omega
  · rename_i h
    rw [BitVec.lt_def, BitVec.toNat_add, e1, e2] at h
    rw [BitVec.toNat_add, e1, e2]
    omega

end Sys2Proof.Machine
end

