-- ==== Sys2Proof/Tests/Slice0.lean ====
section
/-! SUPPORT. The session's own tests: ill-formed words, one decoding per instruction, single steps whose expected results are those of
spec/95_test_vectors.md (its section is named at each test), and a witness for the hypotheses of every obligation that has any. -/

namespace Sys2Proof.Tests

open Sys2Proof.Machine

/-! ### Ill-formed words: one per check of WellFormed (95_test_vectors.md section 2.1) -/

theorem test_illformed_group0 :
    wellFormedWord 0x0123#16 = false ∧ decodeWord 0x0123#16 = none ∧ decodeTableWord 16 0x0123 = none := by decide

theorem test_illformed_group0_zero :
    wellFormedWord 0x0000#16 = false ∧ decodeWord 0x0000#16 = none ∧ decodeTableWord 16 0x0000 = none := by decide

theorem test_illformed_group0_hires :
    wellFormedWord 0x00FF#16 = false ∧ decodeWord 0x00FF#16 = none ∧ decodeTableWord 16 0x00FF = none := by decide

theorem test_illformed_group5 :
    wellFormedWord 0x5121#16 = false ∧ decodeWord 0x5121#16 = none ∧ decodeTableWord 16 0x5121 = none := by decide

theorem test_illformed_group8 :
    wellFormedWord 0x8128#16 = false ∧ decodeWord 0x8128#16 = none ∧ decodeTableWord 16 0x8128 = none := by decide

theorem test_illformed_group8_last :
    wellFormedWord 0x812F#16 = false ∧ decodeWord 0x812F#16 = none ∧ decodeTableWord 16 0x812F = none := by decide

theorem test_illformed_group9 :
    wellFormedWord 0x9121#16 = false ∧ decodeWord 0x9121#16 = none ∧ decodeTableWord 16 0x9121 = none := by decide

theorem test_illformed_groupE :
    wellFormedWord 0xE000#16 = false ∧ decodeWord 0xE000#16 = none ∧ decodeTableWord 16 0xE000 = none := by decide

theorem test_illformed_groupF :
    wellFormedWord 0xF0FF#16 = false ∧ decodeWord 0xF0FF#16 = none ∧ decodeTableWord 16 0xF0FF = none := by decide

theorem test_wellformed_drw : wellFormedWord 0xD015#16 = true := by decide

/-! ### Decoding: the word of every instruction, written out nibble by nibble from the table of R94 -/

theorem test_decode_cls : decodeWord 0b0000000011100000#16 = some (.cls) := by decide
theorem test_decode_ret : decodeWord 0b0000000011101110#16 = some (.ret) := by decide
theorem test_decode_jp : decodeWord 0b0001101010111100#16 = some (.jp 0xABC) := by decide
theorem test_decode_call : decodeWord 0b0010010000000001#16 = some (.call 0x401) := by decide
theorem test_decode_seImm : decodeWord 0b0011000101000010#16 = some (.seImm 1 0x42) := by decide
theorem test_decode_sneImm : decodeWord 0b0100000101000010#16 = some (.sneImm 1 0x42) := by decide
theorem test_decode_seReg : decodeWord 0b0101000100100000#16 = some (.seReg 1 2) := by decide
theorem test_decode_sneReg : decodeWord 0b1001000100100000#16 = some (.sneReg 1 2) := by decide
theorem test_decode_ldImm : decodeWord 0b0110101001011100#16 = some (.ldImm 0xA 0x5C) := by decide
theorem test_decode_addImm : decodeWord 0b0111000100000101#16 = some (.addImm 1 0x05) := by decide
theorem test_decode_ldReg : decodeWord 0b1000000100100000#16 = some (.ldReg 1 2) := by decide
theorem test_decode_or : decodeWord 0b1000000100100001#16 = some (.or 1 2) := by decide
theorem test_decode_and : decodeWord 0b1000000100100010#16 = some (.and 1 2) := by decide
theorem test_decode_xor : decodeWord 0b1000000100100011#16 = some (.xor 1 2) := by decide
theorem test_decode_addReg : decodeWord 0b1000000100100100#16 = some (.addReg 1 2) := by decide
theorem test_decode_sub : decodeWord 0b1000000100100101#16 = some (.sub 1 2) := by decide
theorem test_decode_subn : decodeWord 0b1000000100100111#16 = some (.subn 1 2) := by decide
theorem test_decode_shr : decodeWord 0b1000000100100110#16 = some (.shr 1 2) := by decide
theorem test_decode_shl : decodeWord 0b1000000100101110#16 = some (.shl 1 2) := by decide
theorem test_decode_ldI : decodeWord 0b1010000100100011#16 = some (.ldI 0x123) := by decide
theorem test_decode_jpV0 : decodeWord 0b1011001100000001#16 = some (.jpV0 0x301) := by decide
theorem test_decode_rnd : decodeWord 0b1100000100001111#16 = some (.rnd 1 0x0F) := by decide
theorem test_decode_drw : decodeWord 0b1101000100100101#16 = some (.drw 1 2 5) := by decide
theorem test_decode_skp : decodeWord 0b1110001010011110#16 = some (.skp 2) := by decide
theorem test_decode_sknp : decodeWord 0b1110001010100001#16 = some (.sknp 2) := by decide
theorem test_decode_ldVxDt : decodeWord 0b1111001100000111#16 = some (.ldVxDt 3) := by decide
theorem test_decode_ldVxK : decodeWord 0b1111010100001010#16 = some (.ldVxK 5) := by decide
theorem test_decode_ldDt : decodeWord 0b1111000100010101#16 = some (.ldDt 1) := by decide
theorem test_decode_ldSt : decodeWord 0b1111000100011000#16 = some (.ldSt 1) := by decide
theorem test_decode_addI : decodeWord 0b1111000100011110#16 = some (.addI 1) := by decide
theorem test_decode_ldF : decodeWord 0b1111001100101001#16 = some (.ldF 3) := by decide
theorem test_decode_ldB : decodeWord 0b1111000100110011#16 = some (.ldB 1) := by decide
theorem test_decode_ldStore : decodeWord 0b1111001001010101#16 = some (.ldStore 2) := by decide
theorem test_decode_ldLoad : decodeWord 0b1111001001100101#16 = some (.ldLoad 2) := by decide

/-- The byte at the lower address is the high byte (R62), and what follows the instruction is returned. -/
theorem test_decode_bytes :
    decode [0b00010010#8, 0b00110100#8, 0xFF#8] = .ok (.jp 0x234, [0xFF#8]) := by decide
theorem test_decode_truncated : decode [0x12#8] = .error .truncated := by decide
theorem test_decode_unimplemented : decode [0x01#8, 0x23#8] = .error (.unimplemented 0x0123#16) := by decide
theorem test_encode_drw : encodeBytes (.drw 0xA 0xB 0xC) = [0xDA#8, 0xBC#8] := by decide

/-! ### Single steps

`ran s w p`: the word, placed at PC, completes from `s` and `p` holds of the state after.
`stops s w f`: it faults with `f`. -/

/-- The outcome is a next state that meets `p`. -/
def nextWith (r : Result) (p : State → Bool) : Bool :=
  match r with
  | .next t => p t
  | .fault _ => false
  | .refused _ => false

/-- The outcome is the fault. -/
def faultsWith (r : Result) (f : Fault) : Bool :=
  match r with
  | .next _ => false
  | .fault g => decide (g = f)
  | .refused _ => false

theorem exists_of_nextWith {r : Result} {p : State → Bool} (h : nextWith r p = true) :
    ∃ t, r = .next t ∧ p t = true := by
  cases r with
  | next t => exact ⟨t, rfl, h⟩
  | fault f => cases h
  | refused f => cases h

theorem next_of_nextWith {r : Result} (h : nextWith r (fun _ => true) = true) : ∃ t, r = .next t :=
  (exists_of_nextWith h).imp fun _ ht => ht.1

theorem fault_of_faultsWith {r : Result} {f : Fault} (h : faultsWith r f = true) : r = .fault f := by
  cases r with
  | next t => cases h
  | fault g => exact congrArg _ (of_decide_eq_true h)
  | refused g => cases h

def ran (s : State) (w : Nat) (p : State → Bool) : Bool := nextWith (step (s.withFetchWord 16 w)) p

def stops (s : State) (w : Nat) (f : Fault) : Bool := faultsWith (step (s.withFetchWord 16 w)) f

/-- The start state of the vectors: after `new()`. -/
abbrev s0 : State := State.reset

/-- A byte of memory set up. -/
def poke (s : State) (a : Nat) (b : Byte) : State := s.setMem (s.mem.write a b)

/-- The generator of the RND vectors: seed 0. -/
def seeded : State := s0.setRng (seedRng 0)

/-- No cell is on but the listed ones, among rows 0 to 4 and columns 0 to 8. -/
def cornerIs (s : State) (on : List (Nat × Nat)) : Bool :=
  (List.finRange 5).all fun r => (List.finRange 9).all fun c =>
    s.fb.pixel (r.castLE (by decide)) (c.castLE (by decide)) == on.contains (c.val, r.val)


/-! #### 95_test_vectors.md section 2.1 -/

theorem test_zero_word : stops (s0) 0x0000 (.unimplementedInstruction 0x0000 0x0200) = true := by decide
theorem test_last_word_runs :
    ran (s0.setPc 0xFFE) 0x6A01 (fun t => decide (t.reg 0xA = 1 ∧ t.pc = 0x1000)) = true := by decide
theorem test_fetch_fault :
    faultsWith (step ((s0.setPc 0xFFF).setDt 5)) (.memoryOutOfRange 0x1000) = true := by decide
theorem test_reset_step : faultsWith (step s0) (.unimplementedInstruction 0 0x200) = true := by decide
theorem test_latched :
    faultsWith (step (s0.latch (.memoryOutOfRange 0x1000) s0)) (.memoryOutOfRange 0x1000) = true := by decide

/-! #### 95_test_vectors.md section 2.2 -/

theorem test_cls :
    ran (s0.setReg 15 7) 0x00E0 (fun t => decide (t.fb.pixel 3 4 = false ∧ t.reg 15 = 7 ∧ t.pc = 0x202)) = true := by decide
theorem test_cls_clears :
    nextWith (exec .cls (s0.setFb (s0.fb.setPixel 31 63 true))) (fun t => !t.fb.pixel 31 63) = true := by decide
theorem test_ret :
    ran (s0.setStack (s0.stack.set 0 0x456) 1) 0x00EE (fun t => decide (t.pc = 0x456 ∧ t.sp = 0 ∧ t.stack[0] = 0x456)) = true := by decide
theorem test_ret_empty : stops (s0) 0x00EE (.stackUnderflow 0x202) = true := by decide
theorem test_jp :
    ran (s0) 0x1ABC (fun t => decide (t.pc = 0xABC)) = true := by decide
theorem test_call_last_slot :
    ran (s0.setStack s0.stack 15) 0x2400 (fun t => decide (t.stack[15] = 0x202 ∧ t.sp = 16 ∧ t.pc = 0x400)) = true := by decide
theorem test_call_full : stops (s0.setStack s0.stack 16) 0x2400 (.stackOverflow 0x202) = true := by decide
theorem test_seImm :
    ran (s0.setReg 1 0x42) 0x3142 (fun t => decide (t.pc = 0x204)) = true := by decide
theorem test_seImm_other :
    ran (s0.setReg 1 0x41) 0x3142 (fun t => decide (t.pc = 0x202)) = true := by decide
theorem test_sneImm :
    ran (s0.setReg 1 0x42) 0x4142 (fun t => decide (t.pc = 0x202)) = true := by decide
theorem test_sneImm_other :
    ran (s0.setReg 1 0x41) 0x4142 (fun t => decide (t.pc = 0x204)) = true := by decide
theorem test_seReg :
    ran ((s0.setReg 1 7).setReg 2 7) 0x5120 (fun t => decide (t.pc = 0x204)) = true := by decide
theorem test_seReg_other :
    ran ((s0.setReg 1 7).setReg 2 8) 0x5120 (fun t => decide (t.pc = 0x202)) = true := by decide
theorem test_sneReg :
    ran ((s0.setReg 1 7).setReg 2 7) 0x9120 (fun t => decide (t.pc = 0x202)) = true := by decide
theorem test_sneReg_other :
    ran ((s0.setReg 1 7).setReg 2 8) 0x9120 (fun t => decide (t.pc = 0x204)) = true := by decide
theorem test_jpV0 :
    ran (s0.setReg 0 0x10) 0xB300 (fun t => decide (t.pc = 0x310)) = true := by decide
theorem test_jpV0_unmasked :
    ran (s0.setReg 0 0xFF) 0xBFFF (fun t => decide (t.pc = 0x10FE)) = true := by decide

/-! #### 95_test_vectors.md section 2.3 -/

theorem test_ldImm :
    ran (s0) 0x6A5C (fun t => decide (t.reg 0xA = 0x5C ∧ t.pc = 0x202)) = true := by decide
theorem test_addImm_wraps :
    ran ((s0.setReg 1 0xFF).setReg 15 0x77) 0x7101 (fun t => decide (t.reg 1 = 0 ∧ t.reg 15 = 0x77)) = true := by decide
theorem test_addImm_vf :
    ran (s0.setReg 15 0xFF) 0x7F01 (fun t => decide (t.reg 15 = 0)) = true := by decide
theorem test_ldReg :
    ran (s0.setReg 2 0x99) 0x8120 (fun t => decide (t.reg 1 = 0x99)) = true := by decide
theorem test_or :
    ran (((s0.setReg 1 0xF0).setReg 2 0x0F).setReg 15 0x55) 0x8121 (fun t => decide (t.reg 1 = 0xFF ∧ t.reg 15 = 0x55)) = true := by decide
theorem test_and :
    ran (((s0.setReg 1 0xF0).setReg 2 0x3C).setReg 15 0x55) 0x8122 (fun t => decide (t.reg 1 = 0x30 ∧ t.reg 15 = 0x55)) = true := by decide
theorem test_xor :
    ran (((s0.setReg 1 0xFF).setReg 2 0x0F).setReg 15 0x55) 0x8123 (fun t => decide (t.reg 1 = 0xF0 ∧ t.reg 15 = 0x55)) = true := by decide
theorem test_addReg :
    ran ((s0.setReg 1 10).setReg 2 250) 0x8124 (fun t => decide (t.reg 1 = 4 ∧ t.reg 15 = 1)) = true := by decide
theorem test_addReg_vf :
    ran ((s0.setReg 15 1).setReg 1 2) 0x8F14 (fun t => decide (t.reg 15 = 0)) = true := by decide
theorem test_sub :
    ran ((s0.setReg 1 3).setReg 2 5) 0x8125 (fun t => decide (t.reg 1 = 0xFE ∧ t.reg 15 = 0)) = true := by decide
theorem test_sub_equal :
    ran (((s0.setReg 1 5).setReg 2 5).setReg 15 1) 0x8125 (fun t => decide (t.reg 1 = 0 ∧ t.reg 15 = 0)) = true := by decide
theorem test_subn :
    ran ((s0.setReg 1 3).setReg 2 5) 0x8127 (fun t => decide (t.reg 1 = 2 ∧ t.reg 15 = 1)) = true := by decide
theorem test_subn_less :
    ran ((s0.setReg 1 5).setReg 2 3) 0x8127 (fun t => decide (t.reg 1 = 0xFE ∧ t.reg 15 = 0)) = true := by decide
theorem test_shr :
    ran ((s0.setReg 1 5).setReg 2 0xFF) 0x8126 (fun t => decide (t.reg 1 = 2 ∧ t.reg 15 = 1 ∧ t.reg 2 = 0xFF)) = true := by decide
theorem test_shr_vf :
    ran (s0.setReg 15 2) 0x8F06 (fun t => decide (t.reg 15 = 0)) = true := by decide
theorem test_shl :
    ran (s0.setReg 1 0x81) 0x810E (fun t => decide (t.reg 1 = 2 ∧ t.reg 15 = 1)) = true := by decide
theorem test_shl_bit3 :
    ran (s0.setReg 1 8) 0x810E (fun t => decide (t.reg 1 = 0x10 ∧ t.reg 15 = 0)) = true := by decide

/-! #### 95_test_vectors.md section 2.4 -/

theorem test_ldI :
    ran (s0) 0xA123 (fun t => decide (t.i = 0x123)) = true := by decide
theorem test_addI_past_memory :
    ran ((s0.setI 0xFFF).setReg 1 1) 0xF11E (fun t => decide (t.i = 0x1000 ∧ t.reg 15 = 0)) = true := by decide
theorem test_addI_wraps :
    ran (((s0.setI 0xFFFF).setReg 1 2).setReg 15 0x33) 0xF11E (fun t => decide (t.i = 1 ∧ t.reg 15 = 0x33)) = true := by decide
theorem test_ldF :
    ran (s0.setReg 3 0x0B) 0xF329 (fun t => decide (t.i = 55)) = true := by decide
theorem test_ldF_low_nibble :
    ran (s0.setReg 3 0x1A) 0xF329 (fun t => decide (t.i = 50)) = true := by decide
theorem test_ldB :
    ran ((s0.setReg 1 234).setI 0x300) 0xF133 (fun t => decide (t.byteAt 0x300 = 2 ∧ t.byteAt 0x301 = 3 ∧ t.byteAt 0x302 = 4 ∧ t.i = 0x300)) = true := by decide
theorem test_ldB_edge : stops (s0.setI 0xFFE) 0xF133 (.memoryOutOfRange 0x1000) = true := by decide
theorem test_ldStore :
    ran (((((s0.setReg 0 5).setReg 1 4).setReg 2 3).setReg 3 9).setI 0x300) 0xF255 (fun t => decide (t.byteAt 0x300 = 5 ∧ t.byteAt 0x301 = 4 ∧ t.byteAt 0x302 = 3 ∧ t.byteAt 0x303 = 0 ∧ t.i = 0x300)) = true := by decide
theorem test_ldStore_edge : stops (s0.setI 0xFFF) 0xF155 (.memoryOutOfRange 0x1000) = true := by decide
theorem test_ldLoad_font :
    ran (s0) 0xFF65 (fun t => decide (t.reg 0 = 0xF0 ∧ t.reg 5 = 0x20 ∧ t.reg 0xA = 0xF0 ∧ t.reg 0xF = 0xF0)) = true := by decide
theorem test_ldLoad_edge : stops (s0.setI 0xFF8) 0xFF65 (.memoryOutOfRange 0x1000) = true := by decide

/-! #### 95_test_vectors.md section 2.5 -/

theorem test_rnd :
    ran (seeded) 0xC0FF (fun t => decide (t.reg 0 = 0x3A)) = true := by decide
theorem test_rnd_mask :
    ran (seeded) 0xC00F (fun t => decide (t.reg 0 = 0x0A)) = true := by decide
theorem test_first_draw : (seedRng 0).next.2 = 0xFFFA783A#32 := by decide

/-! #### 95_test_vectors.md section L1.6 and 2.6 -/

theorem test_drw_glyph :
    ran (s0) 0xD015 (fun t => decide (t.reg 15 = 0 ∧ cornerIs t [(0,0), (1,0), (2,0), (3,0), (0,1), (3,1), (0,2), (3,2), (0,3), (3,3), (0,4), (1,4), (2,4), (3,4)] = true)) = true := by decide
theorem test_drw_wraps :
    ran ((((poke s0 0x300 0x80).setI 0x300).setReg 1 70).setReg 2 33) 0xD121 (fun t => decide (t.fb.pixel 1 6 = true ∧ t.fb.pixel 0 6 = false ∧ t.reg 15 = 0)) = true := by decide

/-! #### 95_test_vectors.md section 2.7 -/

theorem test_skp :
    ran ((s0.setReg 2 5).setKey 5 true) 0xE29E (fun t => decide (t.pc = 0x204)) = true := by decide
theorem test_skp_index : stops (s0.setReg 2 16) 0xE29E (.keyIndexOutOfRange 16) = true := by decide
theorem test_sknp :
    ran (s0.setReg 2 5) 0xE2A1 (fun t => decide (t.pc = 0x204)) = true := by decide
theorem test_sknp_index : stops (s0.setReg 2 0xFF) 0xE2A1 (.keyIndexOutOfRange 255) = true := by decide
theorem test_ldVxDt :
    ran (s0.setDt 0x10) 0xF307 (fun t => decide (t.dt = 0x0F ∧ t.reg 3 = 0x0F)) = true := by decide
theorem test_ldVxDt_zero :
    ran (s0.setReg 3 9) 0xF307 (fun t => decide (t.dt = 0 ∧ t.reg 3 = 0)) = true := by decide
theorem test_ldVxK_waits :
    ran ((s0.setDt 3).setSt 2) 0xF50A (fun t => decide (t.pc = 0x200 ∧ t.reg 5 = 0 ∧ t.dt = 2 ∧ t.st = 1 ∧ t.toneRequested = true)) = true := by decide
theorem test_ldVxK_lowest :
    ran ((s0.setKey 3 true).setKey 0xC true) 0xF50A (fun t => decide (t.reg 5 = 3 ∧ t.pc = 0x202)) = true := by decide
theorem test_ldDt :
    ran ((s0.setReg 1 3).setDt 9) 0xF115 (fun t => decide (t.dt = 3)) = true := by decide
theorem test_ldSt :
    ran (s0.setReg 1 1) 0xF118 (fun t => decide (t.st = 1 ∧ t.toneRequested = true)) = true := by decide
theorem test_ldSt_zero :
    ran (s0.setSt 1) 0xF118 (fun t => decide (t.st = 0 ∧ t.toneRequested = false)) = true := by decide

/-! #### 95_test_vectors.md section 2.8 -/

theorem test_reset_keeps_keys :
    ((s0.setKey 4 true).setReg 1 9).hostReset.keyIn 4 = true ∧
      ((s0.setKey 4 true).setReg 1 9).hostReset.reg 1 = 0 := by decide
theorem test_load_too_long : s0.load (List.replicate 3585 0) = .insufficientMemory 3585 := by
  have h : loadMax < (List.replicate 3585 (0 : Byte)).length := by
    rw [List.length_replicate]; decide
  rw [State.load, if_pos h, List.length_replicate]
theorem test_load_two :
    (match s0.load [0x12, 0x34] with
      | .ok t => decide (t.byteAt 0x200 = 0x12 ∧ t.byteAt 0x201 = 0x34)
      | .insufficientMemory _ => false) = true := by decide

/-! ### Witnesses: for every obligation with hypotheses, states and operands that meet all of them -/

theorem witness_EncodeOfDecodeIsTheWord : decodeWord 0x8124#16 = some (.addReg 1 2) := by decide

theorem witness_DecodeMatchesExactlyOneTableRow :
    decodeWord 0xE29E#16 = some (.skp 2) ∧ (Instr.skp 2).row ∈ opcodeRows ∧
      (Instr.skp 2).row.matches 0xE29E#16 = true := by decide

/-- A state with a word placed by hand at PC. -/
def holding (s : State) (high low : Byte) : State :=
  poke (poke s s.pc.toNat high) (s.pc.toNat + 1) low

/-- At the last address a fetch can start at. -/
theorem witness_StepRunsTheDecodedInstruction :
    ∃ (s : State) (i : Instr), s.fault = none ∧ s.pc.toNat + 1 < 4096 ∧
      decodeWord s.wordAtPc = some i :=
  ⟨holding (s0.setPc 0xFFE) 0x6A 0x01, .ldImm 0xA 1, by decide⟩

/-- With PC at the last place a fetch can start at, and with PC past it (the last clause's premise does not hold there). -/
theorem witness_PlacedWordRunsNext :
    ((s0.setPc 0xFFE).Inv ∧ decodeTableWord 16 0x1200 = some (.jp 0x200) ∧
      (s0.setPc 0xFFE).pc.toNat + 1 < 4096) ∧
    ((s0.setPc 0xFFF).Inv ∧ ¬ (s0.setPc 0xFFF).pc.toNat + 1 < 4096) := by
  refine ⟨⟨rfl, ?_, ?_⟩, rfl, ?_⟩ <;> decide

theorem witness_FetchAndDecodeFaults :
    ((s0.setPc 0xFFF).fault = none ∧ 4096 ≤ (s0.setPc 0xFFF).pc.toNat + 1) ∧
    ((s0.setPc 0x1000).fault = none ∧ 4096 ≤ (s0.setPc 0x1000).pc.toNat + 1) ∧
    ((s0.setPc 0xFFE).fault = none ∧ (s0.setPc 0xFFE).pc.toNat + 1 < 4096 ∧
      decodeWord (s0.setPc 0xFFE).wordAtPc = none) := by decide

theorem witness_RaisedFaultIsLatchedAndFinal :
    s0.fault = none ∧ step s0 = .fault (.unimplementedInstruction 0 0x200) :=
  ⟨rfl, fault_of_faultsWith test_reset_step⟩

/-- A state with a fault latched. -/
def stuck : State := s0.latch (.memoryOutOfRange 0x1000) s0

theorem witness_OnlyResetClearsALatchedFault :
    stuck.fault = some (.memoryOutOfRange 0x1000) ∧ ∃ t, stuck.load [0x12, 0x00] = .ok t :=
  ⟨rfl, _, rfl⟩

/-- A state with two instructions placed: LD VA,0x01, then JP 0x200. -/
def running : State := poke (poke (holding s0 0x6A 0x01) 0x202 0x12) 0x203 0x00

theorem running_next : ∃ t, step running = .next t := next_of_nextWith (by decide)

theorem running_inv : running.Inv := (by decide : running.mem.wf = true)

theorem witness_SnapshotIsRowMajor : 2047 < 2048 ∧ ∃ t, step running = .next t :=
  ⟨by decide, running_next⟩

theorem witness_ToneIsTheSoundTimerNonzero : ∃ s t, step s = .next t := ⟨running, running_next⟩

theorem witness_TimerCountsCompletedSteps :
    ∃ t, RunsWithout (fun i => ∃ x, i = .ldDt x) 1 running t ∧
      RunsWithout (fun i => ∃ x, i = .ldSt x) 1 running t := by
  obtain ⟨t, ht⟩ := running_next
  have hd : decodeWord running.wordAtPc = some (.ldImm 0xA 1) := by decide
  exact ⟨t, ⟨_, t, hd, by simp, ht, rfl⟩, ⟨_, t, hd, by simp, ht, rfl⟩⟩

/-- One witness for each alternative of the conclusion. -/
theorem witness_FaultsOfEachInstruction :
    exec (.call 0x400) (s0.setStack s0.stack 16) = .fault (.stackOverflow 0x200) ∧
    exec .ret s0 = .fault (.stackUnderflow 0x200) ∧
    exec (.skp 2) (s0.setReg 2 16) = .fault (.keyIndexOutOfRange 16) ∧
    exec (.sknp 2) (s0.setReg 2 16) = .fault (.keyIndexOutOfRange 16) ∧
    exec (.drw 1 2 1) (s0.setI 0x1000) = .fault (.memoryOutOfRange 0x1000) ∧
    exec (.ldB 1) (s0.setI 0xFFE) = .fault (.memoryOutOfRange 0x1000) ∧
    exec (.ldStore 15) (s0.setI 0xFF1) = .fault (.memoryOutOfRange 0x1000) ∧
    exec (.ldLoad 0) (s0.setI 0xFFFF) = .fault (.memoryOutOfRange 0xFFFF) := by
  refine ⟨?_, ?_, ?_, ?_, ?_, ?_, ?_, ?_⟩ <;> exact fault_of_faultsWith (by decide)

theorem witness_StackAndAccessLimitsFault :
    (s0.setStack s0.stack 16).sp = 16 ∧ s0.sp = 0 ∧ 4096 < (s0.setI 0xFFE).i.toNat + 3 ∧
      4096 ≤ (s0.setI 0xFFF).i.toNat + (1 : Reg).toNat ∧
      (1 : Nibble) ≠ 0 ∧ 4096 < (s0.setI 0x1000).i.toNat + (1 : Nibble).toNat := by decide

theorem witness_StepKeepsTheInvariant : ∃ s t : State, s.Inv ∧ step s = .next t := by
  obtain ⟨t, ht⟩ := running_next
  exact ⟨running, t, running_inv, ht⟩

theorem witness_HostOperationsKeepTheInvariant :
    running.Inv ∧ ∃ t, running.load [0x12, 0x00] = .ok t := ⟨running_inv, _, rfl⟩

/-- At the last address, over a memory that lists it already, and with another address. -/
theorem witness_MemoryReadsTheLastWrite :
    Memory.wf [(4095, 7#8)] = true ∧ 4095 < 4096 ∧ (4094 : Nat) ≠ 4095 := by decide

/-- The same bytes stored in two orders, one of them over an older value. -/
theorem witness_EqualReadsMeanEqualMemories :
    let m := Memory.write (Memory.write [] 0x300 1) 0x200 2
    let m' := Memory.write (Memory.write (Memory.write [] 0x200 3) 0x200 2) 0x300 1
    m.wf = true ∧ m'.wf = true ∧ ∀ a, a < 4096 → m.read a = m'.read a :=
  ⟨by decide, by decide, fun _ _ => rfl⟩

/-- A fetch of the last two bytes stored, at the end of memory. -/
theorem witness_StoredBytesAreFetched :
    ∃ s t u : State, s.Inv ∧ exec (.ldStore 15) s = .next t ∧ 14 + 1 ≤ (15 : Reg).toNat ∧
      u.mem = t.mem ∧ u.pc.toNat = s.i.toNat + 14 := by
  obtain ⟨t, ht⟩ := next_of_nextWith (r := exec (.ldStore 15) (s0.setI 0xFF0)) (by decide)
  exact ⟨s0.setI 0xFF0, t, t.setPc 0xFFE, rfl, ht, by decide, rfl, rfl⟩

/-- Every part has an instruction that completes and does not write it. -/
theorem witness_EachPartHasItsWriters (p : StatePart) :
    ∃ i t, exec i s0 = .next t ∧ writerOf p i = false := by
  cases p
  case v => exact ⟨.jp 0x400, _, rfl, by decide⟩
  all_goals exact ⟨.ldImm 1 5, _, rfl, by decide⟩

theorem witness_RegistersAreWrittenOnlyAsDestinations :
    (∃ t, exec (.addReg 1 2) s0 = .next t ∧ isDest (.addReg 1 2) 3 = false ∧
      ((3 : Reg) = 15 → writesFlag (.addReg 1 2) = false)) ∧
    (∃ t, exec (.ldImm 1 5) s0 = .next t ∧ isDest (.ldImm 1 5) 15 = false ∧
      ((15 : Reg) = 15 → writesFlag (.ldImm 1 5) = false)) :=
  ⟨⟨_, rfl, by decide⟩, ⟨_, rfl, by decide⟩⟩

theorem witness_FlagIsWrittenOnlyByTheSixFlagWriters :
    (∃ t, exec (.shr 15 2) s0 = .next t ∧ writesFlag (.shr 15 2) = true) ∧
    (∃ t, exec (.or 14 2) s0 = .next t ∧ writesFlag (.or 14 2) = false ∧
      isDest (.or 14 2) 15 = false) :=
  ⟨⟨_, rfl, by decide⟩, ⟨_, rfl, by decide⟩⟩

theorem witness_KeysAreWrittenOnlyByTheHost :
    (∃ t, step running = .next t) ∧ KeyMap.lookup [('a', 15)] 'a' = some 15 ∧
      KeyMap.lookup [('a', 15)] 'b' = none := ⟨running_next, by decide, by decide⟩

theorem witness_ConstructionValues : 79 < 80 ∧ 80 ≤ 80 ∧ 15 < 16 := by decide

/-- A cartridge that fills the program area, its last byte, and one a byte longer. -/
theorem witness_LoadCopiesTheCartridgeOrRefuses :
    s0.Inv ∧ (List.replicate 3584 (1 : Byte)).length ≤ 3584 ∧
      (List.replicate 3584 (1 : Byte))[3583]? = some 1 ∧
      3584 < (List.replicate 3585 (1 : Byte)).length := by
  refine ⟨rfl, ?_, ?_, ?_⟩
  · rw [List.length_replicate]
  · rw [List.getElem?_replicate, if_pos (by decide)]
  · rw [List.length_replicate]; decide

theorem witness_SeedingFillsTheTable : 3 ≤ 3 ∧ 3 ≤ 4095 ∧ 4095 < 4096 := by decide

theorem witness_DrawDividesExactlyAndReflects :
    ∃ r' word, (seedRng 0).next = (r', word) ∧ (1 : Nat) ≠ r'.i.val := ⟨_, _, rfl, by decide⟩

theorem witness_CallPushesTheReturnAddress :
    s0.sp.val < 16 ∧ (s0.setStack s0.stack 15).sp.val < 16 ∧ (14 : Nat) ≠ 15 := by decide

theorem witness_ReturnPopsTheNewestAddress :
    0 < (s0.setStack s0.stack 1).sp.val ∧ 0 < (s0.setStack s0.stack 16).sp.val := by decide

theorem witness_CallThenReturnComesBack : (s0.setStack s0.stack 15).sp.val < 16 := by decide

/-- The destination other than VF, for the flag writers' statements. -/
theorem witness_AddSetsTheCarry : (14 : Reg) ≠ 15 := by decide
theorem witness_SubtractSetsTheStrictFlag : (14 : Reg) ≠ 15 := by decide
theorem witness_ShiftsKeepTheBitShiftedOut : (0 : Reg) ≠ 15 := by decide

theorem witness_BcdStoresTheDigits :
    (s0.setI 0xFFD).Inv ∧ (s0.setI 0xFFD).indexAddress + 3 ≤ 4096 := ⟨rfl, by decide⟩

theorem witness_BulkStoreWritesTheRange :
    (s0.setI 0xFF0).Inv ∧ (s0.setI 0xFF0).indexAddress + (15 : Reg).toNat < 4096 ∧
      15 ≤ (15 : Reg).toNat := ⟨rfl, by decide⟩

theorem witness_BulkLoadReadsTheRange :
    (s0.setI 0xFF1).indexAddress + (14 : Reg).toNat < 4096 ∧ 14 ≤ (14 : Reg).toNat ∧
      (14 : Reg).toNat < (15 : Reg).toNat := by decide

theorem witness_BulkStoreThenLoadRestores :
    ∃ t, exec (.ldStore 14) (s0.setI 0xFF1) = .next t ∧ (s0.setI 0xFF1).Inv ∧
      (s0.setI 0xFF1).indexAddress + (14 : Reg).toNat < 4096 ∧
      ∃ u : State, u.mem = t.mem ∧ u.i = t.i ∧ u.reg 0 = 9 := by
  obtain ⟨t, ht⟩ := next_of_nextWith (r := exec (.ldStore 14) (s0.setI 0xFF1)) (by decide)
  exact ⟨t, ht, rfl, by decide, t.setReg 0 9, rfl, rfl, by simp⟩

/-- A sprite of 15 rows at the last column and row: its last bit wraps at both edges; the cell left of it is not touched. -/
theorem witness_DrawSpriteFlipsTheTouchedCells :
    (List.replicate 15 0xFF#8).length ≤ 15 ∧
      Touches 63 31 (List.replicate 15 0xFF#8) 13 6 ∧
      ¬ Touches 63 31 (List.replicate 15 0xFF#8) 13 7 := by
  refine ⟨by decide, ⟨14, 7, 0xFF, by decide⟩, ?_⟩
  rintro ⟨j, i, b, _, hi, _, _, hc⟩
  change 7 = (63 + i) % 64 at hc
  omega

theorem witness_DrawReadsTheSpriteAndSetsTheFlag :
    ((0 : Nibble) = 0 ∨ (s0.setI 0xFFFF).indexAddress + (0 : Nibble).toNat ≤ 4096) ∧
    ((15 : Nibble) = 0 ∨ (s0.setI 0xFF1).indexAddress + (15 : Nibble).toNat ≤ 4096) ∧
    14 < (15 : Nibble).toNat := by decide

theorem witness_DrawingTwiceRestores :
    (List.replicate 15 0x80#8).length ≤ 15 ∧ s0.fb = Framebuffer.clear := ⟨by decide, rfl⟩

theorem witness_KeySkips :
    ((s0.setReg 2 15).reg 2).toNat = (15 : Fin 16).val ∧ 15 < ((s0.setReg 2 16).reg 2).toNat := by
  decide

/-- A waiting LD V5,K at PC. -/
def waiting : State := holding s0 0xF5 0x0A

/-- With only the last key held, and with none, at a fetched LD V5,K. -/
theorem witness_KeyWaitTakesTheLowestKeyOrStays :
    ((waiting.setKey 15 true).keyIn 15 = true ∧
      ∀ j : Fin 16, j < 15 → (waiting.setKey 15 true).keyIn j = false) ∧
    ((∀ k : Fin 16, waiting.keyIn k = false) ∧ waiting.fault = none ∧
      waiting.pc.toNat + 1 < 4096 ∧ decodeWord waiting.wordAtPc = some (.ldVxK 5)) := by decide

theorem witness_DelayTimerIsReadAfterTheDecrement :
    (holding (s0.setDt 1) 0xFF 0x07).fault = none ∧
      (holding (s0.setDt 1) 0xFF 0x07).pc.toNat + 1 < 4096 ∧
      decodeWord (holding (s0.setDt 1) 0xFF 0x07).wordAtPc = some (.ldVxDt 15) := by decide

theorem witness_RegistersAreIndependentBytes : (14 : Reg) ∉ [(15 : Reg)] := by decide

end Sys2Proof.Tests
end

section
/-! PROOFS. The family of `10_state.md`: the register file (R20). -/

namespace Sys2Proof.Machine

/-! ### What the two register loads do, and the frame of a register write -/

theorem exec_ldImm (x : Reg) (kk : Byte) (s : State) : exec (.ldImm x kk) s = .next (s.setReg x kk) := rfl

theorem exec_ldReg (x y : Reg) (s : State) : exec (.ldReg x y) s = .next (s.setReg x (s.reg y)) := rfl

theorem sameRegsBut_setReg (s : State) (x : Reg) (b : Byte) : SameRegsBut s (s.setReg x b) [x] :=
  fun _ hy => s.reg_setReg_other b (Ne.symm (List.ne_of_not_mem_cons hy))

/-- Settles O60: both instructions are one register write, whose read-back and frame hold for every register; the byte
written by the first is the one the second copies. -/
theorem registersAreIndependentBytes : Obligations.RegistersAreIndependentBytes := by
  intro s x y b
  let t := s.setReg x b
  have hread : t.reg x = b := s.reg_setReg_same x b
  have hcopy : (t.setReg y (t.reg x)).reg y = b := (t.reg_setReg_same y (t.reg x)).trans hread
  exact ⟨t, t.setReg y (t.reg x),
    exec_ldImm x b s, hread, sameRegsBut_setReg s x b,
    exec_ldReg y x t, hcopy, sameRegsBut_setReg t y (t.reg x)⟩

end Sys2Proof.Machine
end

section
/-! PROOFS. The family of `45_keys_timers.md`: the keys (R240, R241). -/

namespace Sys2Proof.Machine

@[simp] theorem State.isPressed_val (s : State) (k : Fin 16) : s.isPressed k.val = s.keyIn k := by
  simp [State.isPressed, State.keyIn]

theorem State.isPressed_of_lt (s : State) {k : Nat} (h : k < 16) : s.isPressed k = s.keyIn ⟨k, h⟩ :=
  s.isPressed_val ⟨k, h⟩

theorem State.firstPressedIndex_eq_some_iff (s : State) (k : Nat) :
    s.firstPressedIndex = some k ↔
      k < 16 ∧ s.isPressed k = true ∧ ∀ j < k, s.isPressed j = false := by
  simp only [State.firstPressedIndex, List.find?_range_eq_some, List.mem_range, Bool.not_eq_true']
  exact and_left_comm

theorem State.firstPressedIndex_eq_none_iff (s : State) :
    s.firstPressedIndex = none ↔ ∀ j < 16, s.isPressed j = false := by
  simp only [State.firstPressedIndex, List.find?_range_eq_none, Bool.not_eq_true']

/-- Settles O56: the scan of 0..15 stops at the first index that `isPressed` accepts; every index it has looked at is below
16, where `isPressed` reads the key table. -/
theorem firstPressedIsTheLowest : Obligations.FirstPressedIsTheLowest := by
  intro s
  constructor
  · intro k
    rw [s.firstPressedIndex_eq_some_iff k]
    constructor
    · rintro ⟨hk, hheld, hbelow⟩
      exact ⟨hk, s.isPressed_of_lt hk ▸ hheld, fun j hj => s.isPressed_val j ▸ hbelow j hj⟩
    · rintro ⟨hk, hheld, hbelow⟩
      refine ⟨hk, (s.isPressed_of_lt hk).trans hheld, fun j hj => ?_⟩
      exact (s.isPressed_of_lt (Nat.lt_trans hj hk)).trans (hbelow ⟨j, Nat.lt_trans hj hk⟩ hj)
  · rw [s.firstPressedIndex_eq_none_iff]
    constructor
    · exact fun hnone j => s.isPressed_val j ▸ hnone j j.isLt
    · exact fun hnone j hj => (s.isPressed_of_lt hj).trans (hnone ⟨j, hj⟩)

end Sys2Proof.Machine
end

section
/-! PROOFS. The family of `30_encoding.md`: the decoder against the encoder and against the opcode table (R90 to R105). -/

namespace Sys2Proof

/-! ### Decoding what was encoded -/

theorem decodeWord_encode (i : Instr) : decodeWord (encode i) = some i := by
  cases i with
  | cls | ret => decide
  | jp | call | ldI | jpV0 | seImm | sneImm | ldImm | addImm | rnd => simp [encode, decodeWord]
  | seReg | sneReg | drw => simp [encode, decodeWord]
  | ldReg | or | and | xor | addReg | sub | subn | shr | shl =>
    simp [encode, decodeWord, decodeGroup8]
  | skp | sknp => simp [encode, decodeWord, decodeGroupE]
  | ldVxDt | ldVxK | ldDt | ldSt | addI | ldF | ldB | ldStore | ldLoad =>
    simp [encode, decodeWord, decodeGroupF]

/-- Settles O2: as a word by the instruction's format, and as bytes because a word is its two bytes. -/
theorem decodeOfEncodeIsTheInstruction : Obligations.DecodeOfEncodeIsTheInstruction := by
  intro i rest
  refine ⟨decodeWord_encode i, ?_⟩
  simp [encodeBytes, decode, decodeWord_encode]

theorem eq_ofNat_of_toNat_eq {w : Nat} {a : BitVec w} {k : Nat} (h : a.toNat = k) : a = BitVec.ofNat w k := by
  rw [← h, BitVec.ofNat_toNat, BitVec.setWidth_eq]

/-! ### Encoding what was decoded: one inversion per group with a minor opcode -/

theorem encode_of_decodeGroup0 {w : Word} {i : Instr} (h : decodeGroup0 w = some i) : encode i = w := by
  unfold decodeGroup0 at h
  split_ifs at h with h1 h2 <;> cases h
  · exact h1.symm
  · exact h2.symm

theorem encode_of_decodeGroup8 {x y n : Nibble} {i : Instr} (h : decodeGroup8 x y n = some i) :
    encode i = nibbles 0x8 x y n := by
  unfold decodeGroup8 at h
  split at h <;> cases h <;> rw [eq_ofNat_of_toNat_eq ‹n.toNat = _›] <;> rfl

theorem encode_of_decodeGroupE {x : Nibble} {kk : Byte} {i : Instr} (h : decodeGroupE x kk = some i) :
    encode i = nibbleByte 0xE x kk := by
  unfold decodeGroupE at h
  split_ifs at h <;> cases h <;> subst kk <;> rfl

theorem encode_of_decodeGroupF {x : Nibble} {kk : Byte} {i : Instr} (h : decodeGroupF x kk = some i) :
    encode i = nibbleByte 0xF x kk := by
  unfold decodeGroupF at h
  split_ifs at h <;> cases h <;> subst kk <;> rfl

/-- A word that decodes is the encoding of what it decodes to (R94, R95). -/
theorem encode_of_decodeWord {w : Word} {i : Instr} (h : decodeWord w = some i) : encode i = w := by
  have haddr := nibbleAddr_fields w
  have hbyte := nibbleByte_fields w
  have hnibs := nibbles_fields w
  unfold decodeWord at h
  split at h
  case h_17 => cases h
  all_goals rw [eq_ofNat_of_toNat_eq ‹(fieldOp w).toNat = _›] at haddr hbyte hnibs
  case h_1 => exact encode_of_decodeGroup0 h
  case h_9 => exact (encode_of_decodeGroup8 h).trans hnibs
  case h_15 => exact (encode_of_decodeGroupE h).trans hbyte
  case h_16 => exact (encode_of_decodeGroupF h).trans hbyte
  case h_6 | h_10 =>
    split_ifs at h with hn
    cases h
    rw [hn] at hnibs
    exact hnibs
  all_goals cases h
  case h_2 | h_3 | h_11 | h_12 => exact haddr
  case h_14 => exact hnibs
  all_goals exact hbyte

/-- Settles O3: each format loses no field of the word, and each group's minor opcode is put back. -/
theorem encodeOfDecodeIsTheWord : Obligations.EncodeOfDecodeIsTheWord :=
  fun _ _ h => encode_of_decodeWord h

/-! ### The rows of the opcode table (R94, R95) -/

/-- The per-instruction laws `TableRow`, as one statement. -/
theorem encode_matches_row : ∀ i : Instr, i.row.matches (encode i) = true
  | .cls => Laws.TableRow.cls
  | .ret => Laws.TableRow.ret
  | .jp nnn => Laws.TableRow.jp nnn
  | .call nnn => Laws.TableRow.call nnn
  | .seImm x kk => Laws.TableRow.seImm x kk
  | .sneImm x kk => Laws.TableRow.sneImm x kk
  | .seReg x y => Laws.TableRow.seReg x y
  | .sneReg x y => Laws.TableRow.sneReg x y
  | .ldImm x kk => Laws.TableRow.ldImm x kk
  | .addImm x kk => Laws.TableRow.addImm x kk
  | .ldReg x y => Laws.TableRow.ldReg x y
  | .or x y => Laws.TableRow.or x y
  | .and x y => Laws.TableRow.and x y
  | .xor x y => Laws.TableRow.xor x y
  | .addReg x y => Laws.TableRow.addReg x y
  | .sub x y => Laws.TableRow.sub x y
  | .subn x y => Laws.TableRow.subn x y
  | .shr x y => Laws.TableRow.shr x y
  | .shl x y => Laws.TableRow.shl x y
  | .ldI nnn => Laws.TableRow.ldI nnn
  | .jpV0 nnn => Laws.TableRow.jpV0 nnn
  | .rnd x kk => Laws.TableRow.rnd x kk
  | .drw x y n => Laws.TableRow.drw x y n
  | .skp x => Laws.TableRow.skp x
  | .sknp x => Laws.TableRow.sknp x
  | .ldVxDt x => Laws.TableRow.ldVxDt x
  | .ldVxK x => Laws.TableRow.ldVxK x
  | .ldDt x => Laws.TableRow.ldDt x
  | .ldSt x => Laws.TableRow.ldSt x
  | .addI x => Laws.TableRow.addI x
  | .ldF x => Laws.TableRow.ldF x
  | .ldB x => Laws.TableRow.ldB x
  | .ldStore x => Laws.TableRow.ldStore x
  | .ldLoad x => Laws.TableRow.ldLoad x

theorem row_mem_opcodeRows (i : Instr) : i.row ∈ opcodeRows := by
  cases i <;> simp [Instr.row, opcodeRows]

section
variable {w value : Word} {mnemonic : String}

/-- A row fixes the fields of the words it matches that its mask covers. -/
theorem extractLsb'_of_matches {mask : Word} (h : (OpcodeRow.mk mnemonic value mask).matches w = true)
    (start len : Nat) (hm : mask.extractLsb' start len = BitVec.allOnes len) :
    w.extractLsb' start len = value.extractLsb' start len := by
  have hw : w &&& mask = value := of_decide_eq_true h
  rw [← hw, BitVec.extractLsb'_and, hm, BitVec.and_allOnes]

/-! A word that a row matches, put together from the row's fixed fields and its own others: one lemma per format. -/

theorem eq_of_matches (h : (OpcodeRow.mk mnemonic value 0xFFFF#16).matches w = true) : value = w :=
  (of_decide_eq_true h).symm.trans BitVec.and_allOnes

theorem nibbleAddr_of_matches {op : Nibble} (hop : fieldOp value = op)
    (h : (OpcodeRow.mk mnemonic value 0xF000#16).matches w = true) : nibbleAddr op (fieldNnn w) = w := by
  have hop' : fieldOp w = fieldOp value := extractLsb'_of_matches h 12 4 rfl
  exact hop'.trans hop ▸ nibbleAddr_fields w

theorem nibbleByte_of_matches {op : Nibble} (hop : fieldOp value = op)
    (h : (OpcodeRow.mk mnemonic value 0xF000#16).matches w = true) :
    nibbleByte op (fieldX w) (fieldKk w) = w := by
  have hop' : fieldOp w = fieldOp value := extractLsb'_of_matches h 12 4 rfl
  exact hop'.trans hop ▸ nibbleByte_fields w

theorem nibbles_of_matches {op : Nibble} (hop : fieldOp value = op)
    (h : (OpcodeRow.mk mnemonic value 0xF000#16).matches w = true) :
    nibbles op (fieldX w) (fieldY w) (fieldN w) = w := by
  have hop' : fieldOp w = fieldOp value := extractLsb'_of_matches h 12 4 rfl
  exact hop'.trans hop ▸ nibbles_fields w

theorem nibbles_of_matches_minor {op n : Nibble} (hop : fieldOp value = op) (hn : fieldN value = n)
    (h : (OpcodeRow.mk mnemonic value 0xF00F#16).matches w = true) :
    nibbles op (fieldX w) (fieldY w) n = w := by
  have hop' : fieldOp w = fieldOp value := extractLsb'_of_matches h 12 4 rfl
  have hn' : fieldN w = fieldN value := extractLsb'_of_matches h 0 4 rfl
  exact hop'.trans hop ▸ hn'.trans hn ▸ nibbles_fields w

theorem nibbleByte_of_matches_minor {op : Nibble} {kk : Byte} (hop : fieldOp value = op)
    (hkk : fieldKk value = kk) (h : (OpcodeRow.mk mnemonic value 0xF0FF#16).matches w = true) :
    nibbleByte op (fieldX w) kk = w := by
  have hop' : fieldOp w = fieldOp value := extractLsb'_of_matches h 12 4 rfl
  have hkk' : fieldKk w = fieldKk value := extractLsb'_of_matches h 0 8 rfl
  exact hop'.trans hop ▸ hkk'.trans hkk ▸ nibbleByte_fields w

end

/-- A word that a row of the table matches is the encoding of an instruction of that row. -/
theorem exists_encode_of_matches (w : Word) :
    ∀ row ∈ opcodeRows, row.matches w = true → ∃ i : Instr, encode i = w ∧ i.row = row := by
  simp only [opcodeRows, List.cons_append, List.nil_append, List.forall_mem_cons]
  exact ⟨
    fun h => ⟨.cls, eq_of_matches h, rfl⟩,
    fun h => ⟨.ret, eq_of_matches h, rfl⟩,
    fun h => ⟨.jp _, nibbleAddr_of_matches rfl h, rfl⟩,
    fun h => ⟨.call _, nibbleAddr_of_matches rfl h, rfl⟩,
    fun h => ⟨.seImm _ _, nibbleByte_of_matches rfl h, rfl⟩,
    fun h => ⟨.sneImm _ _, nibbleByte_of_matches rfl h, rfl⟩,
    fun h => ⟨.seReg _ _, nibbles_of_matches_minor rfl rfl h, rfl⟩,
    fun h => ⟨.sneReg _ _, nibbles_of_matches_minor rfl rfl h, rfl⟩,
    fun h => ⟨.ldImm _ _, nibbleByte_of_matches rfl h, rfl⟩,
    fun h => ⟨.addImm _ _, nibbleByte_of_matches rfl h, rfl⟩,
    fun h => ⟨.ldReg _ _, nibbles_of_matches_minor rfl rfl h, rfl⟩,
    fun h => ⟨.or _ _, nibbles_of_matches_minor rfl rfl h, rfl⟩,
    fun h => ⟨.and _ _, nibbles_of_matches_minor rfl rfl h, rfl⟩,
    fun h => ⟨.xor _ _, nibbles_of_matches_minor rfl rfl h, rfl⟩,
    fun h => ⟨.addReg _ _, nibbles_of_matches_minor rfl rfl h, rfl⟩,
    fun h => ⟨.sub _ _, nibbles_of_matches_minor rfl rfl h, rfl⟩,
    fun h => ⟨.subn _ _, nibbles_of_matches_minor rfl rfl h, rfl⟩,
    fun h => ⟨.shr _ _, nibbles_of_matches_minor rfl rfl h, rfl⟩,
    fun h => ⟨.shl _ _, nibbles_of_matches_minor rfl rfl h, rfl⟩,
    fun h => ⟨.ldI _, nibbleAddr_of_matches rfl h, rfl⟩,
    fun h => ⟨.jpV0 _, nibbleAddr_of_matches rfl h, rfl⟩,
    fun h => ⟨.rnd _ _, nibbleByte_of_matches rfl h, rfl⟩,
    fun h => ⟨.drw _ _ _, nibbles_of_matches rfl h, rfl⟩,
    fun h => ⟨.skp _, nibbleByte_of_matches_minor rfl rfl h, rfl⟩,
    fun h => ⟨.sknp _, nibbleByte_of_matches_minor rfl rfl h, rfl⟩,
    fun h => ⟨.ldVxDt _, nibbleByte_of_matches_minor rfl rfl h, rfl⟩,
    fun h => ⟨.ldVxK _, nibbleByte_of_matches_minor rfl rfl h, rfl⟩,
    fun h => ⟨.ldDt _, nibbleByte_of_matches_minor rfl rfl h, rfl⟩,
    fun h => ⟨.ldSt _, nibbleByte_of_matches_minor rfl rfl h, rfl⟩,
    fun h => ⟨.addI _, nibbleByte_of_matches_minor rfl rfl h, rfl⟩,
    fun h => ⟨.ldF _, nibbleByte_of_matches_minor rfl rfl h, rfl⟩,
    fun h => ⟨.ldB _, nibbleByte_of_matches_minor rfl rfl h, rfl⟩,
    fun h => ⟨.ldStore _, nibbleByte_of_matches_minor rfl rfl h, rfl⟩,
    fun h => ⟨.ldLoad _, nibbleByte_of_matches_minor rfl rfl h, rfl⟩,
    fun _ h => absurd h List.not_mem_nil⟩

/-- Settles O4: a row that matches is the row of what the word decodes to, so it is the only one. -/
theorem decodeMatchesExactlyOneTableRow : Obligations.DecodeMatchesExactlyOneTableRow := by
  intro w
  have hdecode : ∀ row ∈ opcodeRows, row.matches w = true → ∃ i, decodeWord w = some i ∧ i.row = row := by
    intro row hrow h
    obtain ⟨i, rfl, hi⟩ := exists_encode_of_matches w row hrow h
    exact ⟨i, decodeWord_encode i, hi⟩
  have hmatch : ∀ i, decodeWord w = some i → i.row ∈ opcodeRows ∧ i.row.matches w = true := by
    intro i h
    exact ⟨row_mem_opcodeRows i, encode_of_decodeWord h ▸ encode_matches_row i⟩
  refine ⟨⟨fun h => ?_, fun ⟨row, hrow, h⟩ => ?_⟩, hmatch, fun r₁ h₁ r₂ h₂ hm₁ hm₂ => ?_⟩
  · obtain ⟨i, hi⟩ := Option.isSome_iff_exists.1 h
    exact ⟨i.row, hmatch i hi⟩
  · obtain ⟨i, hi, -⟩ := hdecode row hrow h
    exact Option.isSome_iff_exists.2 ⟨i, hi⟩
  · obtain ⟨i, hi, rfl⟩ := hdecode r₁ h₁ hm₁
    obtain ⟨j, hj, rfl⟩ := hdecode r₂ h₂ hm₂
    rw [Option.some.inj (hi.symm.trans hj)]

end Sys2Proof
end

section
/-! PROOFS. The unimplemented words, group by group, and the well-formedness check (R95 to R104). -/

namespace Sys2Proof

/-- Settles O1: each is one evaluation of the decoder. -/
theorem sampleWordsDecode : Obligations.SampleWordsDecode := by
  refine ⟨?_, ?_, ?_, ?_, ?_, ?_, ?_, ?_⟩ <;> decide

/-! ### Which words decode, group by group (R96 to R100) -/

theorem ite_some_eq_none_iff {α : Type} {p : Prop} [Decidable p] (a : α) (o : Option α) :
    (if p then some a else o) = none ↔ ¬ p ∧ o = none := by
  by_cases h : p <;> simp [h]

theorem decodeGroup0_eq_none_iff (w : Word) : decodeGroup0 w = none ↔ w ≠ 0x00E0 ∧ w ≠ 0x00EE := by
  simp [decodeGroup0, ite_some_eq_none_iff]

theorem decodeGroup8_eq_none_iff (x y n : Nibble) :
    decodeGroup8 x y n = none ↔ n ∈ ([0x8, 0x9, 0xA, 0xB, 0xC, 0xD, 0xF] : List Nibble) := by
  have hn := n.isLt
  unfold decodeGroup8
  split
  case h_10 =>
    simp only [imp_false] at *
    simp [BitVec.toNat_eq]
    omega
  all_goals simp [BitVec.toNat_eq, *]

theorem decodeGroupE_eq_none_iff (x : Nibble) (kk : Byte) :
    decodeGroupE x kk = none ↔ kk ∉ ([0x9E, 0xA1] : List Byte) := by
  simp [decodeGroupE, ite_some_eq_none_iff]

theorem decodeGroupF_eq_none_iff (x : Nibble) (kk : Byte) :
    decodeGroupF x kk = none ↔
      kk ∉ ([0x07, 0x0A, 0x15, 0x18, 0x1E, 0x29, 0x33, 0x55, 0x65] : List Byte) := by
  simp [decodeGroupF, ite_some_eq_none_iff]

theorem and_0x000F (w : Word) : w &&& 0x000F#16 = (fieldN w).setWidth 16 := by
  apply BitVec.eq_of_toNat_eq
  rw [BitVec.toNat_and, BitVec.toNat_setWidth, toNat_fieldN]
  have := Nat.and_two_pow_sub_one_eq_mod w.toNat 4
  simp at *
  omega

theorem and_0x00FF (w : Word) : w &&& 0x00FF#16 = (fieldKk w).setWidth 16 := by
  apply BitVec.eq_of_toNat_eq
  rw [BitVec.toNat_and, BitVec.toNat_setWidth, toNat_fieldKk]
  have := Nat.and_two_pow_sub_one_eq_mod w.toNat 8
  simp at *
  omega

theorem groupCompareOk_iff (w : Word) : groupCompareOk w = true ↔ fieldN w = 0 := by
  rw [groupCompareOk, and_0x000F, decide_eq_true_iff]
  generalize fieldN w = n
  revert n
  decide

theorem group8Ok_iff (w : Word) :
    group8Ok w = true ↔ fieldN w ∉ ([0x8, 0x9, 0xA, 0xB, 0xC, 0xD, 0xF] : List Nibble) := by
  rw [group8Ok, and_0x000F]
  generalize fieldN w = n
  revert n
  decide

theorem groupEOk_iff (w : Word) : groupEOk w = true ↔ fieldKk w ∈ ([0x9E, 0xA1] : List Byte) := by
  rw [groupEOk, and_0x00FF]
  generalize fieldKk w = kk
  revert kk
  decide

theorem groupFOk_iff (w : Word) : groupFOk w = true ↔
    fieldKk w ∈ ([0x07, 0x0A, 0x15, 0x18, 0x1E, 0x29, 0x33, 0x55, 0x65] : List Byte) := by
  rw [groupFOk, and_0x00FF]
  generalize fieldKk w = kk
  revert kk
  decide

theorem group0Ok_iff (w : Word) : group0Ok w = true ↔ ¬ (w ≠ 0x00E0 ∧ w ≠ 0x00EE) := by
  simp [group0Ok, or_iff_not_imp_left]

/-- Settles O5: by the major opcode; a group with a minor opcode decodes exactly its own, any other decodes every word. -/
theorem unimplementedWordsByGroup : Obligations.UnimplementedWordsByGroup := by
  intro w
  have hlt : (fieldOp w).toNat < 16 := (fieldOp w).isLt
  rw [Bool.eq_iff_iff, Option.isSome_iff_ne_none, Ne]
  simp only [wellFormedWord, show majorOpcode w = fieldOp w from rfl]
  have hgroup {k : Nat} (h : (fieldOp w).toNat = k) : fieldOp w = BitVec.ofNat 4 k := eq_ofNat_of_toNat_eq h
  obtain h | h | h | h | h | h | hfree : (fieldOp w).toNat = 0 ∨ (fieldOp w).toNat = 5 ∨
      (fieldOp w).toNat = 8 ∨ (fieldOp w).toNat = 9 ∨ (fieldOp w).toNat = 14 ∨ (fieldOp w).toNat = 15 ∨
      (fieldOp w).toNat ∈ [1, 2, 3, 4, 6, 7, 10, 11, 12, 13] := by
    simp only [List.mem_cons, List.not_mem_nil]
    omega
  · simp [decodeWord, hgroup h, decodeGroup0_eq_none_iff, group0Ok_iff]
  · simp [decodeWord, hgroup h, groupCompareOk_iff]
  · simp [decodeWord, hgroup h, decodeGroup8_eq_none_iff, group8Ok_iff]
  · simp [decodeWord, hgroup h, groupCompareOk_iff]
  · simp [decodeWord, hgroup h, decodeGroupE_eq_none_iff, groupEOk_iff, or_iff_not_imp_left]
  · simp [decodeWord, hgroup h, decodeGroupF_eq_none_iff, groupFOk_iff, or_iff_not_imp_left]
  · simp only [List.mem_cons, List.not_mem_nil, or_false] at hfree
    obtain h | h | h | h | h | h | h | h | h | h := hfree <;> simp [decodeWord, hgroup h]

end Sys2Proof
end

section
/-! PROOFS. The layer under every statement about the execute phase: the frame of each update of the state, and what an
execute phase can answer (R14, R115, R261). -/

namespace Sys2Proof.Machine

/-! ### Frames -/

theorem Same.trans {p : StatePart} {s t u : State} (h : Same p s t) (h' : Same p t u) : Same p s u := by
  cases p with
  | v | mem => exact fun k => (h' k).trans (h k)
  | stack => exact ⟨h'.1.trans h.1, h'.2.trans h.2⟩
  | _ => exact Eq.trans (c := _) h' h

theorem SameBut.trans {ps : List StatePart} {s t u : State} (h : SameBut ps s t) (h' : SameBut ps t u) :
    SameBut ps s u := fun p hp => (h p hp).trans (h' p hp)

theorem SameBut.mono {ps qs : List StatePart} {s t : State} (h : SameBut ps s t) (hsub : ps ⊆ qs) :
    SameBut qs s t := fun p hp => h p fun hmem => hp (hsub hmem)

section
variable (s : State)

theorem sameBut_setReg (x : Reg) (b : Byte) : SameBut [.v] s (s.setReg x b) := by
  intro p hp; cases p <;> simp_all [Same, State.byteAt]

theorem sameBut_setV (v : Vector Byte 16) : SameBut [.v] s (s.setV v) := by
  intro p hp; cases p <;> simp_all [Same, State.byteAt]

theorem sameBut_setI (w : Word) : SameBut [.i] s (s.setI w) := by
  intro p hp; cases p <;> simp_all [Same, State.byteAt]

theorem sameBut_setPc (w : Word) : SameBut [.pc] s (s.setPc w) := by
  intro p hp; cases p <;> simp_all [Same, State.byteAt]

theorem sameBut_setMem (m : Memory) : SameBut [.mem] s (s.setMem m) := by
  intro p hp; cases p <;> simp_all [Same]

theorem sameBut_setStack (k : Vector Word 16) (sp : Fin 17) : SameBut [.stack] s (s.setStack k sp) := by
  intro p hp; cases p <;> simp_all [Same, State.byteAt]

theorem sameBut_setDt (b : Byte) : SameBut [.dt] s (s.setDt b) := by
  intro p hp; cases p <;> simp_all [Same, State.byteAt]

theorem sameBut_setSt (b : Byte) : SameBut [.st] s (s.setSt b) := by
  intro p hp; cases p <;> simp_all [Same, State.byteAt]

theorem sameBut_setFb (fb : Framebuffer) : SameBut [.fb] s (s.setFb fb) := by
  intro p hp; cases p <;> simp_all [Same, State.byteAt]

theorem sameBut_setRng (r : RandomSource) : SameBut [.rng] s (s.setRng r) := by
  intro p hp; cases p <;> simp_all [Same, State.byteAt]

theorem sameBut_setFlag (flag : Bool) : SameBut [.v] s (s.setFlag flag) := sameBut_setReg s flagReg _

theorem sameBut_setResultFlag (x : Reg) (b : Byte) (flag : Bool) : SameBut [.v] s (s.setResultFlag x b flag) :=
  (sameBut_setReg s x b).trans (sameBut_setFlag _ flag)

theorem sameBut_draw (x y : Byte) (sprite : List Byte) : SameBut [.v, .fb] s (s.draw x y sprite) :=
  ((sameBut_setFb s _).mono (by simp)).trans ((sameBut_setFlag _ _).mono (by simp))

theorem sameBut_prologue : SameBut [.pc, .dt, .st] s s.prologue :=
  (((sameBut_setPc s _).mono (by simp)).trans ((sameBut_setDt _ _).mono (by simp))).trans
    ((sameBut_setSt _ _).mono (by simp))

end

/-! ### What an execute phase can answer -/

section
variable (x y : Reg) (s : State)

theorem exec_call (nnn : Addr12) :
    exec (.call nnn) s = s.push s.pc fun s => .next (s.setPc (zextAddr nnn)) := rfl

theorem exec_ret : exec .ret s = s.pop fun s target => .next (s.setPc target) := rfl

theorem exec_skp : exec (.skp x) s = s.withKey (s.reg x) fun held => .next (s.skipIf held) := rfl

theorem exec_sknp : exec (.sknp x) s = s.withKey (s.reg x) fun held => .next (s.skipIf !held) := rfl

theorem exec_drw (n : Nibble) : exec (.drw x y n) s =
    s.withRead s.indexAddress n.toNat fun sprite => .next (s.draw (s.reg x) (s.reg y) sprite) := rfl

theorem exec_ldB : exec (.ldB x) s = s.memWrite s.indexAddress (bcdDigits (s.reg x)) := rfl

theorem exec_ldStore : exec (.ldStore x) s = s.memWrite s.indexAddress (s.regRange x) := rfl

theorem exec_ldLoad : exec (.ldLoad x) s =
    s.withRead s.indexAddress (x.toNat + 1) fun bytes => .next (s.setV (setRegsFrom s.v 0 bytes)) := rfl

theorem exec_ldVxK_none (h : s.firstPressedIndex = none) :
    exec (.ldVxK x) s = .next (s.setPc (s.pc - 2)) := by
  show execLdVxK x s = _
  simp [execLdVxK, h]

theorem exec_ldVxK_some {k : Nat} (h : s.firstPressedIndex = some k) :
    exec (.ldVxK x) s = .next (s.setReg x (BitVec.ofNat 8 k)) := by
  show execLdVxK x s = _
  simp [execLdVxK, h]

end

/-- The states an instruction may leave when it completes: one update of the state, of a part it is a writer of. -/
inductive Effect (i : Instr) (s : State) : State → Prop
  | reg {x b} (hdest : isDest i x = true) : Effect i s (s.setReg x b)
  | resultFlag {x b flag} (hdest : isDest i x = true) (hflag : writesFlag i = true) :
      Effect i s (s.setResultFlag x b flag)
  | random {r x b} (hrng : writerOf .rng i = true) (hdest : isDest i x = true) :
      Effect i s ((s.setRng r).setReg x b)
  | load {x bytes} (hi : i = .ldLoad x) (hlen : bytes.length = x.toNat + 1) :
      Effect i s (s.setV (setRegsFrom s.v 0 bytes))
  | index {w} (hi : writerOf .i i = true) : Effect i s (s.setI w)
  | jump {w} (hpc : writerOf .pc i = true) : Effect i s (s.setPc w)
  | stack {k sp w} (hstack : writerOf .stack i = true) (hpc : writerOf .pc i = true) :
      Effect i s ((s.setStack k sp).setPc w)
  | store {bytes} (hmem : writerOf .mem i = true) (hok : accessOk s.indexAddress bytes.length = true) :
      Effect i s (s.setMem (s.mem.writeBytes s.indexAddress bytes))
  | delay {b} (hdt : writerOf .dt i = true) : Effect i s (s.setDt b)
  | sound {b} (hst : writerOf .st i = true) : Effect i s (s.setSt b)
  | clear {fb} (hfb : writerOf .fb i = true) : Effect i s (s.setFb fb)
  | draw {x y sprite} (hfb : writerOf .fb i = true) (hflag : writesFlag i = true) :
      Effect i s (s.draw x y sprite)

/-- The accesses through I: which instructions make one, and of how many bytes. -/
def AccessesBytes (i : Instr) (n : Nat) : Prop :=
  (∃ x y m, i = .drw x y m ∧ n = m.toNat) ∨ (∃ x, i = .ldB x ∧ n = 3) ∨
    (∃ x, (i = .ldStore x ∨ i = .ldLoad x) ∧ n = x.toNat + 1)

/-- The faults an instruction may raise, each with its condition (R263 to R266). -/
inductive Trap (i : Instr) (s : State) : Fault → Prop
  | overflow {nnn} (hi : i = .call nnn) (hsp : s.sp = 16) : Trap i s (.stackOverflow s.pc)
  | underflow (hi : i = .ret) (hsp : s.sp = 0) : Trap i s (.stackUnderflow s.pc)
  | key {x} (hi : i = .skp x ∨ i = .sknp x) (hx : 15 < (s.reg x).toNat) :
      Trap i s (.keyIndexOutOfRange (s.reg x))
  | access {n} (hi : AccessesBytes i n) (hbad : accessOk s.indexAddress n = false) :
      Trap i s (.memoryOutOfRange (firstOutOfRange s.indexAddress))

/-- A result completes in a state that meets `post`, or raises a fault that meets `trap`; it never refuses. -/
inductive Meets (post : State → Prop) (trap : Fault → Prop) : Result → Prop
  | next {t} (ht : post t) : Meets post trap (.next t)
  | fault {f} (hf : trap f) : Meets post trap (.fault f)

section
variable {post : State → Prop} {trap : Fault → Prop} {s : State}

theorem meets_push {w : Word} {k : State → Result}
    (hfree : ∀ stack sp, Meets post trap (k (s.setStack stack sp)))
    (hfull : s.sp = 16 → trap (.stackOverflow s.pc)) : Meets post trap (s.push w k) := by
  unfold State.push
  split
  · exact hfree _ _
  · exact .fault (hfull (by omega))

theorem meets_pop {k : State → Word → Result}
    (hheld : ∀ sp w, Meets post trap (k (s.setStack s.stack sp) w))
    (hempty : s.sp = 0 → trap (.stackUnderflow s.pc)) : Meets post trap (s.pop k) := by
  unfold State.pop
  split
  · exact .fault (hempty (by omega))
  · exact hheld _ _

theorem meets_withRead {a n : Nat} {k : List Byte → Result}
    (hok : ∀ bytes : List Byte, bytes.length = n → Meets post trap (k bytes))
    (hbad : accessOk a n = false → trap (.memoryOutOfRange (firstOutOfRange a))) :
    Meets post trap (s.withRead a n k) := by
  cases h : accessOk a n with
  | true => exact s.withRead_ok k h ▸ hok _ (Memory.readBytes_length ..)
  | false => exact s.withRead_fault k h ▸ .fault (hbad h)

theorem meets_memWrite {a : Nat} {bytes : List Byte}
    (hok : accessOk a bytes.length = true → post (s.setMem (s.mem.writeBytes a bytes)))
    (hbad : accessOk a bytes.length = false → trap (.memoryOutOfRange (firstOutOfRange a))) :
    Meets post trap (s.memWrite a bytes) := by
  cases h : accessOk a bytes.length with
  | true => exact s.memWrite_ok h ▸ .next (hok h)
  | false => exact s.memWrite_fault h ▸ .fault (hbad h)

theorem meets_withKey {index : Byte} {k : Bool → Result} (hkey : ∀ held, Meets post trap (k held))
    (hbad : 15 < index.toNat → trap (.keyIndexOutOfRange index)) : Meets post trap (s.withKey index k) := by
  unfold State.withKey
  split
  · exact .fault (hbad ‹_›)
  · exact hkey _

end

theorem Effect.skipIf {i : Instr} (hpc : writerOf .pc i = true) (s : State) (c : Bool) :
    Effect i s (s.skipIf c) := s.skipIf_eq c ▸ .jump hpc

/-- All that an execute phase can answer (R115, R261). -/
theorem exec_meets (i : Instr) (s : State) : Meets (Effect i s) (Trap i s) (exec i s) := by
  cases i with
  | ldImm | addImm | ldReg | or | and | xor | ldVxDt => exact .next (.reg BEq.rfl)
  | addReg | sub | subn | shr | shl => exact .next (.resultFlag BEq.rfl rfl)
  | rnd => exact .next (.random rfl BEq.rfl)
  | ldI | addI | ldF => exact .next (.index rfl)
  | jp | jpV0 => exact .next (.jump rfl)
  | seImm | sneImm | seReg | sneReg => exact .next (.skipIf rfl s _)
  | ldDt => exact .next (.delay rfl)
  | ldSt => exact .next (.sound rfl)
  | cls => exact .next (.clear rfl)
  | call =>
    rw [exec_call]
    exact meets_push (fun _ _ => .next (.stack rfl rfl)) (.overflow rfl)
  | ret =>
    rw [exec_ret]
    exact meets_pop (fun _ _ => .next (.stack rfl rfl)) (.underflow rfl)
  | skp =>
    rw [exec_skp]
    exact meets_withKey (fun _ => .next (.skipIf rfl s _)) (.key (.inl rfl))
  | sknp =>
    rw [exec_sknp]
    exact meets_withKey (fun _ => .next (.skipIf rfl s _)) (.key (.inr rfl))
  | ldVxK =>
    cases hkey : s.firstPressedIndex with
    | none => exact exec_ldVxK_none _ s hkey ▸ .next (.jump rfl)
    | some k => exact exec_ldVxK_some _ s hkey ▸ .next (.reg BEq.rfl)
  | drw x y n =>
    rw [exec_drw]
    exact meets_withRead (fun _ _ => .next (.draw rfl rfl)) (.access (.inl ⟨x, y, n, rfl, rfl⟩))
  | ldB x => exact meets_memWrite (.store rfl) (.access (.inr (.inl ⟨x, rfl, rfl⟩)))
  | ldStore x =>
    exact meets_memWrite (.store rfl) (.access (.inr (.inr ⟨x, .inl rfl, s.regRange_length x⟩)))
  | ldLoad x =>
    rw [exec_ldLoad]
    exact meets_withRead (fun _ hlen => .next (.load rfl hlen)) (.access (.inr (.inr ⟨x, .inr rfl, rfl⟩)))

theorem exec_effect {i : Instr} {s t : State} (h : exec i s = .next t) : Effect i s t := by
  cases h ▸ exec_meets i s with
  | next ht => exact ht

theorem exec_trap {i : Instr} {s : State} {f : Fault} (h : exec i s = .fault f) : Trap i s f := by
  cases h ▸ exec_meets i s with
  | fault hf => exact hf

theorem exec_ne_refused (i : Instr) (s : State) (r : Refusal) : exec i s ≠ .refused r := by
  intro h
  cases h ▸ exec_meets i s

end Sys2Proof.Machine
end

section
/-! PROOFS. Who writes what (`10_state.md`): each part of the state changes only by its writers, read off the effects. -/

namespace Sys2Proof.Machine

theorem writerOf_v (i : Instr) : writerOf .v i =
    (writesFlag i || (List.range 16).any fun y => isDest i (BitVec.ofNat 4 y)) := rfl

theorem writerOf_v_of_isDest {i : Instr} {x : Reg} (h : isDest i x = true) : writerOf .v i = true := by
  have hx : isDest i (BitVec.ofNat 4 x.toNat) = true := by rwa [BitVec.ofNat_toNat, BitVec.setWidth_eq]
  simp only [writerOf_v, Bool.or_eq_true, List.any_eq_true, List.mem_range]
  exact .inr ⟨x.toNat, x.isLt, hx⟩

theorem writerOf_v_of_writesFlag {i : Instr} (h : writesFlag i = true) : writerOf .v i = true := by
  simp [writerOf_v, h]

theorem isDest_ldLoad (x y : Reg) : isDest (.ldLoad x) y = decide (y.toNat ≤ x.toNat) := rfl

theorem ne_of_writerOf {p q : StatePart} {i : Instr} (hp : writerOf p i = false) (hq : writerOf q i = true) :
    p ≠ q := by
  rintro rfl
  simp [hq] at hp

/-- A part none of whose writers is the instruction is left as it was. -/
theorem Effect.same {i : Instr} {s t : State} (h : Effect i s t) {p : StatePart} (hp : writerOf p i = false) :
    Same p s t := by
  have hne {q} (hq : writerOf q i = true) : p ≠ q := ne_of_writerOf hp hq
  cases h with
  | reg hdest => exact sameBut_setReg s _ _ p (by simp [hne (writerOf_v_of_isDest hdest)])
  | resultFlag hdest => exact sameBut_setResultFlag s _ _ _ p (by simp [hne (writerOf_v_of_isDest hdest)])
  | random hrng hdest =>
    exact (sameBut_setRng s _ p (by simp [hne hrng])).trans
      (sameBut_setReg _ _ _ p (by simp [hne (writerOf_v_of_isDest hdest)]))
  | @load x bytes hi =>
    have hdest : isDest i x = true := hi ▸ decide_eq_true (Nat.le_refl _)
    exact sameBut_setV s _ p (by simp [hne (writerOf_v_of_isDest hdest)])
  | index hi => exact sameBut_setI s _ p (by simp [hne hi])
  | jump hpc => exact sameBut_setPc s _ p (by simp [hne hpc])
  | stack hstack hpc =>
    exact (sameBut_setStack s _ _ p (by simp [hne hstack])).trans (sameBut_setPc _ _ p (by simp [hne hpc]))
  | store hmem => exact sameBut_setMem s _ p (by simp [hne hmem])
  | delay hdt => exact sameBut_setDt s _ p (by simp [hne hdt])
  | sound hst => exact sameBut_setSt s _ p (by simp [hne hst])
  | clear hfb => exact sameBut_setFb s _ p (by simp [hne hfb])
  | draw hfb hflag =>
    exact sameBut_draw s _ _ _ p (by simp [hne hfb, hne (writerOf_v_of_writesFlag hflag)])

/-- Settles O23: every completed execute phase is one of the effects, and an effect changes only what its instruction writes. -/
theorem eachPartHasItsWriters : Obligations.EachPartHasItsWriters :=
  fun _ _ _ _ h hp => (exec_effect h).same hp

/-! ### Registers -/

theorem State.reg_setV_setRegsFrom (s : State) (bytes : List Byte) (y : Reg) :
    (s.setV (setRegsFrom s.v 0 bytes)).reg y =
      if h : y.toNat < bytes.length then bytes[y.toNat] else s.reg y := by
  have := getElem_setRegsFrom s.v 0 bytes y.toNat y.isLt
  simpa [State.reg] using this

theorem Effect.reg_eq {i : Instr} {s t : State} (h : Effect i s t) {y : Reg} (hy : isDest i y = false)
    (hflag : y = 15 → writesFlag i = false) : t.reg y = s.reg y := by
  have hne {x} (hx : isDest i x = true) : x ≠ y := by rintro rfl; simp [hx] at hy
  have hvf (hf : writesFlag i = true) : flagReg ≠ y := by rintro rfl; simp [hf] at hflag; exact hflag rfl
  cases h with
  | reg hdest => exact s.reg_setReg_other _ (hne hdest)
  | resultFlag hdest hf => simp [State.reg_setResultFlag, hvf hf, hne hdest]
  | random _ hdest => exact State.reg_setReg_other _ _ (hne hdest)
  | @load x bytes hi hlen =>
    subst hi
    rw [isDest_ldLoad, decide_eq_false_iff_not, Nat.not_le] at hy
    simp [State.reg_setV_setRegsFrom, hlen, Nat.not_lt.2 (Nat.succ_le_of_lt hy)]
  | draw _ hf => exact State.reg_setReg_other _ _ (hvf hf)
  | index | jump | stack | store | delay | sound | clear => rfl

/-- Settles O24, by the effects. -/
theorem registersAreWrittenOnlyAsDestinations : Obligations.RegistersAreWrittenOnlyAsDestinations :=
  fun _ _ _ _ h hy hflag => (exec_effect h).reg_eq hy hflag

theorem flagByte_eq_zero_or_one (b : Bool) : flagByte b = 0 ∨ flagByte b = 1 := by cases b <;> decide

theorem State.reg_setFlag (s : State) (flag : Bool) : (s.setFlag flag).reg 15 = flagByte flag :=
  s.reg_setReg_same flagReg _

/-- The six flag writers leave a flag in VF. -/
theorem exists_flag_of_writesFlag {i : Instr} {s t : State} (h : exec i s = .next t) (hf : writesFlag i = true) :
    ∃ flag, t.reg 15 = flagByte flag := by
  cases i with
  | addReg | sub | subn | shr | shl =>
    obtain rfl : _ = t := Host.Outcome.next.inj h
    exact ⟨_, State.reg_setFlag _ _⟩
  | drw x y n =>
    rw [exec_drw] at h
    obtain rfl : _ = t := Host.Outcome.next.inj (State.withRead_next h).2
    exact ⟨_, State.reg_setFlag _ _⟩
  | _ => cases hf

/-- Settles O25: a flag writer ends with the flag in VF; any other instruction is covered by the effects. -/
theorem flagIsWrittenOnlyByTheSixFlagWriters : Obligations.FlagIsWrittenOnlyByTheSixFlagWriters := by
  intro i s t h
  constructor
  · intro hf
    obtain ⟨flag, hflag⟩ := exists_flag_of_writesFlag h hf
    exact hflag ▸ flagByte_eq_zero_or_one flag
  · exact fun hf hy => (exec_effect h).reg_eq hy fun _ => hf

/-! ### Keys (R32, R278) -/

theorem State.keyIn_setKey (s : State) (k j : Fin 16) (held : Bool) :
    (s.setKey k held).keyIn j = if j = k then held else s.keyIn j := by
  simp [State.keyIn, Vector.getElem_set, Fin.ext_iff, eq_comm]

theorem step_keys {s t : State} (h : step s = .next t) : t.keys = s.keys := by
  obtain ⟨-, -, i, -, hexec⟩ := step_next h
  have : Same .keys s.prologue t := (exec_effect hexec).same (by cases i <;> rfl)
  exact this

/-- Settles O26: no instruction is a writer of KEY, and a key event sets the one flag its identifier maps to. -/
theorem keysAreWrittenOnlyByTheHost : Obligations.KeysAreWrittenOnlyByTheHost := by
  refine ⟨fun s t h => step_keys h, ?_, fun s => rfl, fun s map id k hk => ?_, fun s map id hid => ?_⟩
  · exact fun k => Vector.getElem_replicate k.isLt
  · simp [State.keyDown, State.keyUp, hk, State.keyIn_setKey]
  · simp [State.keyDown, State.keyUp, hid]

end Sys2Proof.Machine
end

section
/-! PROOFS. The step and its faults (`30_encoding.md` section 3, `60_exceptions.md`): what runs, what is raised, the latch. -/

namespace Sys2Proof.Machine

/-! ### The three ways a step ends before the execute phase -/

theorem step_latched {s : State} {f : Fault} (hf : s.fault = some f) : step s = .fault f := by
  simp [step, hf]

theorem step_fetchFault {s : State} (hf : s.fault = none) (hp : ¬ s.pc.toNat + 1 < 4096) :
    step s = .fault (.memoryOutOfRange (firstOutOfRange s.pc.toNat)) := by
  simp [step, hf, State.fetch_error hp, raise]

theorem step_unimplemented {s : State} (hf : s.fault = none) (hp : s.pc.toNat + 1 < 4096)
    (hd : decodeWord s.wordAtPc = none) : step s = .fault (.unimplementedInstruction s.wordAtPc s.pc) := by
  simp [step, hf, State.fetch_ok hp, State.dispatch, hd, raise]

/-- Settles O6: the state executed on is the one the prologue leaves. -/
theorem stepRunsTheDecodedInstruction : Obligations.StepRunsTheDecodedInstruction := by
  intro s i hf hp hd
  exact ⟨s.prologue, step_exec hf hp hd, rfl, decay_toNat s.dt, decay_toNat s.st, sameBut_prologue s⟩

/-- Settles O8: the two ways a step ends before the execute phase; the first address out of range is PC or PC + 1. -/
theorem fetchAndDecodeFaults : Obligations.FetchAndDecodeFaults := by
  intro s hf
  refine ⟨fun hp => ?_, fun hp hd => step_unimplemented hf hp hd⟩
  rw [step_fetchFault hf (by omega)]
  congr 2
  simp only [firstOutOfRange, Config.memSize]
  split <;> omega

/-- Settles O14: each part of a step answers a state or a fault. -/
theorem noStepIsRefused : Obligations.NoStepIsRefused := by
  intro s r h
  cases hf : s.fault with
  | some f => cases (step_latched hf).symm.trans h
  | none =>
    by_cases hp : s.pc.toNat + 1 < 4096
    · cases hd : decodeWord s.wordAtPc with
      | none => cases (step_unimplemented hf hp hd).symm.trans h
      | some i => exact exec_ne_refused i s.prologue r ((step_exec hf hp hd).symm.trans h)
    · cases (step_fetchFault hf hp).symm.trans h

/-! ### Faults of the execute phase -/

/-- Settles O15: the traps of `exec_trap`, one by one. -/
theorem faultsOfEachInstruction : Obligations.FaultsOfEachInstruction := by
  intro i s f h
  cases exec_trap h with
  | @overflow nnn hi hsp => exact .inl ⟨nnn, hi, hsp, rfl⟩
  | underflow hi hsp => exact .inr (.inl ⟨hi, hsp, rfl⟩)
  | @key x hi hx => exact .inr (.inr (.inl ⟨x, hi, hx, rfl⟩))
  | @access n hi hbad =>
    obtain ⟨hn, hrange⟩ := accessOk_eq_false_iff.1 hbad
    exact .inr (.inr (.inr ⟨n, Nat.pos_of_ne_zero hn, hrange, rfl, hi⟩))

theorem State.push_full (s : State) (w : Word) (k : State → Result) (h : s.sp = 16) :
    s.push w k = .fault (.stackOverflow s.pc) := by simp [State.push, h, raise]

theorem State.pop_empty (s : State) (k : State → Word → Result) (h : s.sp = 0) :
    s.pop k = .fault (.stackUnderflow s.pc) := by simp [State.pop, h, raise]

/-- Settles O16: each limit makes the shared operation the instruction runs through fault. -/
theorem stackAndAccessLimitsFault : Obligations.StackAndAccessLimitsFault := by
  intro s x y n nnn
  have hbad {n : Nat} (hn : n ≠ 0) (h : 4096 < s.i.toNat + n) : accessOk s.indexAddress n = false :=
    accessOk_eq_false_iff.2 ⟨hn, h⟩
  rw [exec_call, exec_ret, exec_ldB, exec_ldStore, exec_ldLoad, exec_drw]
  refine ⟨s.push_full _ _, s.pop_empty _, fun h => ?_, fun h => ⟨?_, ?_⟩, fun hn h => ?_⟩
  · exact s.memWrite_fault (hbad nofun h)
  · exact s.memWrite_fault (s.regRange_length x ▸ hbad nofun (by omega))
  · exact s.withRead_fault _ (hbad nofun (by omega))
  · exact s.withRead_fault _ (hbad (fun h0 => hn (BitVec.eq_of_toNat_eq h0)) h)

/-! ### The latch (R110, R117, R260) -/

theorem hostStep_latched {s : State} {f : Fault} (hf : s.fault = some f) (unspecified : State) :
    s.hostStep unspecified = (s, .fault f) := by
  simp [State.hostStep, step_latched hf, State.afterFault, hf]

theorem hostStep_raised {s : State} {f : Fault} (hf : s.fault = none) (h : step s = .fault f)
    (unspecified : State) : s.hostStep unspecified = (s.latch f unspecified, .fault f) := by
  simp [State.hostStep, h, State.afterFault, hf]

theorem hostStep_next {s t : State} (h : step s = .next t) (unspecified : State) :
    s.hostStep unspecified = (t, .ok t.snapshot t.toneRequested) := by
  simp [State.hostStep, h]

/-- Settles O9: the latch is in the state the fault leaves, and a step of a latched state reports it. -/
theorem raisedFaultIsLatchedAndFinal : Obligations.RaisedFaultIsLatchedAndFinal := by
  intro s unspecified f hf h
  exact ⟨s.latch f unspecified, hostStep_raised hf h unspecified, rfl, rfl, hostStep_latched rfl⟩

/-- The form of a load that succeeds (R292). -/
theorem State.load_ok_iff {s t : State} {bytes : List Byte} :
    s.load bytes = .ok t ↔ bytes.length ≤ 3584 ∧ t = s.setMem (s.mem.writeBytes 0x200 bytes) := by
  by_cases h : 3584 < bytes.length
  · simp [State.load, h]
  · simp [State.load, h, Nat.le_of_not_lt h, eq_comm]

section
variable (s : State) (map : KeyMap) (id : Char)

theorem State.keyDown_fault : (s.keyDown map id).fault = s.fault := by unfold State.keyDown; split <;> rfl

theorem State.keyUp_fault : (s.keyUp map id).fault = s.fault := by unfold State.keyUp; split <;> rfl

theorem State.keyDown_mem : (s.keyDown map id).mem = s.mem := by unfold State.keyDown; split <;> rfl

theorem State.keyUp_mem : (s.keyUp map id).mem = s.mem := by unfold State.keyUp; split <;> rfl

end

/-- Settles O10: of the host's operations only `reset()` writes the latch. -/
theorem onlyResetClearsALatchedFault : Obligations.OnlyResetClearsALatchedFault := by
  intro s unspecified f hf
  refine ⟨step_latched hf, hostStep_latched hf unspecified, fun bytes t ht => ?_, fun map id => ?_, rfl⟩
  · obtain ⟨-, rfl⟩ := State.load_ok_iff.1 ht
    exact hf
  · exact ⟨(s.keyDown_fault map id).trans hf, (s.keyUp_fault map id).trans hf⟩

/-! ### Outputs of a completed step (R116, R227, R249) -/

/-- Settles O12: the tone of a completed step is read from the state it leaves. -/
theorem toneIsTheSoundTimerNonzero : Obligations.ToneIsTheSoundTimerNonzero := by
  intro s t unspecified h
  have htone : t.toneRequested = decide (t.st ≠ 0) := by
    simp [State.toneRequested, BitVec.pos_iff_ne_zero]
  exact ⟨t.snapshot, htone ▸ hostStep_next h unspecified⟩

theorem Framebuffer.snapshot_eq_flatten (fb : Framebuffer) : fb.snapshot = fb.flatten.toList := by
  have hrows : fb.flatten.toList = (fb.toList.map Vector.toList).flatten := by
    rw [Vector.flatten, Vector.toList, Array.toList_flatten, Array.toList_map, List.map_map]
    rfl
  exact (List.flatMap_def ..).trans hrows.symm

/-- Settles O11: the snapshot is the flattened grid, whose element k stands in row k / 64 at k % 64. -/
theorem snapshotIsRowMajor : Obligations.SnapshotIsRowMajor := by
  intro s
  refine ⟨?_, fun k hk => ?_, fun t unspecified h => ⟨_, hostStep_next h unspecified⟩⟩
  · simp [State.snapshot, Framebuffer.snapshot_eq_flatten]
  · have hrow : k / 64 % 32 = k / 64 := Nat.mod_eq_of_lt (by omega)
    simp [State.snapshot, Framebuffer.snapshot_eq_flatten, hk, Framebuffer.pixel, hrow]
    exact Vector.getElem_flatten hk

/-! ### Timers (R248) -/

/-- A timer that every step of a run takes one down, or leaves at 0, is after k steps k lower, or 0. -/
theorem RunsWithout.timer_eq {timer : State → Byte} {bad : Instr → Prop}
    (hstep : ∀ s u i, decodeWord s.wordAtPc = some i → ¬ bad i → step s = .next u →
      (timer u).toNat = (timer s).toNat - 1) (k : Nat) (s t : State) (h : RunsWithout bad k s t) :
    (timer t).toNat = (timer s).toNat - k := by
  induction k generalizing s with
  | zero => obtain rfl : s = t := h; rfl
  | succ k ih =>
    obtain ⟨i, u, hd, hgood, hu, hrest⟩ := h
    have hone := hstep s u i hd hgood hu
    have hmore := ih u hrest
    omega

/-- A step leaves what the prologue left in a part its instruction does not write. -/
theorem step_same {s t : State} {i : Instr} {p : StatePart} (h : step s = .next t)
    (hd : decodeWord s.wordAtPc = some i) (hp : writerOf p i = false) : Same p s.prologue t := by
  obtain ⟨-, -, j, hj, hexec⟩ := step_next h
  obtain rfl := Option.some.inj (hd.symm.trans hj)
  exact (exec_effect hexec).same hp

theorem writerOf_dt {i : Instr} (h : ¬ ∃ x, i = .ldDt x) : writerOf .dt i = false := by
  cases i with
  | ldDt x => exact absurd ⟨x, rfl⟩ h
  | _ => rfl

theorem writerOf_st {i : Instr} (h : ¬ ∃ x, i = .ldSt x) : writerOf .st i = false := by
  cases i with
  | ldSt x => exact absurd ⟨x, rfl⟩ h
  | _ => rfl

/-- Settles O13: a step decays both timers, and only LD DT and LD ST write one after that. -/
theorem timerCountsCompletedSteps : Obligations.TimerCountsCompletedSteps := by
  intro k s t
  constructor
  · refine RunsWithout.timer_eq (timer := State.dt) (fun s u i hd hgood h => ?_) k s t
    have hdt : u.dt = decay s.dt := step_same h hd (writerOf_dt hgood)
    rw [hdt, decay_toNat]
  · refine RunsWithout.timer_eq (timer := State.st) (fun s u i hd hgood h => ?_) k s t
    have hst : u.st = decay s.st := step_same h hd (writerOf_st hgood)
    rw [hst, decay_toNat]

end Sys2Proof.Machine
end

section
/-! PROOFS. Memory (`20_memory.md`), its canonical form as the invariant, and the host operations on it (R290 to R292). -/

namespace Sys2Proof.Machine

/-! ### The canonical form -/

theorem Memory.writeBytes_wf_of_accessOk {m : Memory} {a : Nat} {bytes : List Byte} (h : m.wf = true)
    (hok : accessOk a bytes.length = true) : (m.writeBytes a bytes).wf = true := by
  obtain hnil | hrange := accessOk_iff.1 hok
  · rwa [List.length_eq_zero_iff.1 hnil]
  · exact Memory.writeBytes_wf h hrange

theorem Effect.inv {i : Instr} {s t : State} (h : Effect i s t) (hs : s.Inv) : t.Inv := by
  cases h with
  | store _ hok => exact Memory.writeBytes_wf_of_accessOk hs hok
  | _ => exact hs

/-- Settles O17: the prologue leaves memory, and the one effect on memory is a store inside the address space. -/
theorem stepKeepsTheInvariant : Obligations.StepKeepsTheInvariant := by
  intro s t hs h
  obtain ⟨-, -, i, -, hexec⟩ := step_next h
  have hprologue : s.prologue.Inv := hs
  exact (exec_effect hexec).inv hprologue

/-- Settles O18: the list of `new()` is empty. -/
theorem resetMeetsTheInvariant : Obligations.ResetMeetsTheInvariant := by
  show Memory.wf [] = true
  rfl

/-- Settles O19: `reset()` lists no cell, a load that fits stores inside the address space, a key event leaves memory. -/
theorem hostOperationsKeepTheInvariant : Obligations.HostOperationsKeepTheInvariant := by
  intro s hs
  refine ⟨resetMeetsTheInvariant, fun bytes t ht => ?_, fun map id => ?_⟩
  · obtain ⟨hlen, rfl⟩ := State.load_ok_iff.1 ht
    exact Memory.writeBytes_wf hs (by rw [memSize_eq]; omega)
  · unfold State.Inv
    rw [s.keyDown_mem, s.keyUp_mem]
    exact ⟨hs, hs⟩

/-! ### Reads and writes (R68, R70) -/

/-- Settles O20: the three laws of `Memory.write`. -/
theorem memoryReadsTheLastWrite : Obligations.MemoryReadsTheLastWrite := by
  intro m a b hm ha
  exact ⟨Memory.write_wf b hm ha, Memory.read_write_same a b hm, fun a' ha' => m.read_write_other b ha'⟩

theorem Memory.wfFrom_cons {lo a : Nat} {b : Byte} {rest : Memory} :
    Memory.wfFrom lo ((a, b) :: rest) = true ↔
      lo ≤ a ∧ a < 4096 ∧ b ≠ Memory.blank a ∧ rest.wfFrom (a + 1) = true := by
  simp [Memory.wfFrom, and_assoc]

theorem Memory.read_cons_self (a : Nat) (b : Byte) (rest : Memory) :
    Memory.read ((a, b) :: rest) a = b := by simp [Memory.read]

theorem Memory.read_cons_other {a c : Nat} (b : Byte) (rest : Memory) (h : c ≠ a) :
    Memory.read ((a, b) :: rest) c = rest.read c := by simp [Memory.read, h]

/-- A memory that lists nothing up to `a` does not read as a canonical memory whose first cell is `a`. -/
theorem Memory.read_ne_of_head {lo lo' a : Nat} {b : Byte} {rest m : Memory}
    (h : Memory.wfFrom lo ((a, b) :: rest) = true) (hm : m.wfFrom lo' = true) (hlt : a < lo') :
    Memory.read ((a, b) :: rest) a ≠ m.read a := by
  obtain ⟨-, -, hb, -⟩ := Memory.wfFrom_cons.1 h
  rwa [Memory.read_cons_self, Memory.read_below hm hlt]

/-- The canonical form is determined by what it reads. -/
theorem Memory.eq_of_read_eq {m m' : Memory} {lo lo' : Nat} (h : m.wfFrom lo = true) (h' : m'.wfFrom lo' = true)
    (hread : ∀ a, a < 4096 → m.read a = m'.read a) : m = m' := by
  induction m generalizing m' lo lo' with
  | nil =>
    cases m' with
    | nil => rfl
    | cons p' rest' =>
      obtain ⟨-, ha', -, -⟩ := Memory.wfFrom_cons.1 h'
      exact absurd (hread _ ha').symm (Memory.read_ne_of_head (lo' := p'.1 + 1) h' rfl (Nat.lt_succ_self _))
  | cons p rest ih =>
    obtain ⟨a, b⟩ := p
    obtain ⟨-, ha, hb, hrest⟩ := Memory.wfFrom_cons.1 h
    cases m' with
    | nil => exact absurd (hread _ ha) (Memory.read_ne_of_head (lo' := a + 1) h rfl (Nat.lt_succ_self _))
    | cons p' rest' =>
      obtain ⟨a', b'⟩ := p'
      obtain ⟨-, ha', hb', hrest'⟩ := Memory.wfFrom_cons.1 h'
      obtain hlt | rfl | hgt := Nat.lt_trichotomy a a'
      · have hfrom : Memory.wfFrom a' ((a', b') :: rest') = true :=
          Memory.wfFrom_cons.2 ⟨Nat.le_refl _, ha', hb', hrest'⟩
        exact absurd (hread _ ha) (Memory.read_ne_of_head h hfrom hlt)
      · have hbytes : b = b' := by simpa only [Memory.read_cons_self] using hread _ ha
        rw [hbytes, ih hrest hrest' fun c hc => ?_]
        by_cases hca : c = a
        · rw [hca, Memory.read_below hrest (Nat.lt_succ_self _), Memory.read_below hrest' (Nat.lt_succ_self _)]
        · simpa only [Memory.read_cons_other _ _ hca] using hread c hc
      · have hfrom : Memory.wfFrom a ((a, b) :: rest) = true :=
          Memory.wfFrom_cons.2 ⟨Nat.le_refl _, ha, hb, hrest⟩
        exact absurd (hread _ ha').symm (Memory.read_ne_of_head h' hfrom hgt)

/-- Settles O21: at the first cell where two canonical lists differ, one of them reads its byte and the other the reset contents. -/
theorem equalReadsMeanEqualMemories : Obligations.EqualReadsMeanEqualMemories :=
  fun _ _ h h' hread => Memory.eq_of_read_eq h h' hread

/-! ### Stores and fetches (R62, R73) -/

theorem State.memWrite_inside {s : State} {a : Nat} {bytes : List Byte} (h : a + bytes.length ≤ 4096) :
    s.memWrite a bytes = .next (s.setMem (s.mem.writeBytes a bytes)) :=
  s.memWrite_ok (accessOk_iff.2 (.inr h))

theorem sameMemoryOutside_writeBytes (s : State) (a : Nat) (bytes : List Byte) :
    SameMemoryOutside s (s.setMem (s.mem.writeBytes a bytes)) a bytes.length :=
  fun _ hb => s.mem.read_writeBytes_outside hb

theorem State.byteAt_writeBytes {s : State} {a k : Nat} {b : Byte} {bytes : List Byte} (hs : s.Inv)
    (h : a + bytes.length ≤ 4096) (hk : bytes[k]? = some b) :
    (s.setMem (s.mem.writeBytes a bytes)).byteAt (a + k) = b :=
  Memory.read_writeBytes_inside hs h hk

/-- Settles O48: a store of the x + 1 register values, all of them inside memory. -/
theorem bulkStoreWritesTheRange : Obligations.BulkStoreWritesTheRange := by
  intro s x hs hx
  have hlen := s.regRange_length x
  have hin : s.indexAddress + (s.regRange x).length ≤ 4096 := by omega
  refine ⟨_, State.memWrite_inside hin, fun k hk => ?_, ?_, sameBut_setMem s _⟩
  · exact State.byteAt_writeBytes hs hin (s.getElem?_regRange x hk)
  · exact hlen ▸ sameMemoryOutside_writeBytes s _ _

/-- Settles O22: LD [I],Vx completed, so it stored the registers, and the two bytes at PC are two of them. -/
theorem storedBytesAreFetched : Obligations.StoredBytesAreFetched := by
  intro s t x k hs h hk u hmem hpc
  rw [exec_ldStore] at h
  obtain ⟨hok, rfl⟩ := State.memWrite_next h
  have hlen := s.regRange_length x
  have hin : s.indexAddress + (s.regRange x).length ≤ 4096 := by
    obtain h0 | hin := accessOk_iff.1 hok
    · omega
    · exact hin
  have hbyte {j} (hj : j ≤ x.toNat) : u.mem.read (s.indexAddress + j) = s.reg (BitVec.ofNat 4 j) := by
    rw [hmem]
    exact State.byteAt_writeBytes hs hin (s.getElem?_regRange x hj)
  have hpc : u.pc.toNat = s.indexAddress + k := hpc
  rw [State.fetch_ok (by omega), State.wordAtPc, State.byteAt, State.byteAt, hpc, hbyte (by omega),
    Nat.add_assoc, hbyte hk]

/-- Settles O29: a cartridge that fits is one store at 0x200. -/
theorem loadCopiesTheCartridgeOrRefuses : Obligations.LoadCopiesTheCartridgeOrRefuses := by
  intro s bytes hs
  constructor
  · intro hlen
    refine ⟨_, State.load_ok_iff.2 ⟨hlen, rfl⟩, fun k b hb => ?_, ?_, sameBut_setMem s _⟩
    · exact State.byteAt_writeBytes hs (by omega) hb
    · exact sameMemoryOutside_writeBytes s _ _
  · intro hlen
    simp [State.load, hlen]

end Sys2Proof.Machine
end

section
/-! PROOFS. The families of `40_control_flow.md` and `41_alu.md`: jumps, calls, skips, moves and arithmetic. -/

namespace Sys2Proof.Machine

theorem toNat_zextAddr (nnn : Addr12) : (zextAddr nnn).toNat = nnn.toNat :=
  BitVec.toNat_setWidth_of_le (by decide)

theorem toNat_zextByte (b : Byte) : (zextByte b).toNat = b.toNat :=
  BitVec.toNat_setWidth_of_le (by decide)

/-! ### Jumps (R131, R137) -/

/-- Settles O33: one write of PC. -/
theorem jumpLoadsTheAddress : Obligations.JumpLoadsTheAddress := by
  intro s nnn
  exact ⟨decodeWord_encode (.jp nnn), _, rfl, toNat_zextAddr nnn, sameBut_setPc s _⟩

/-- Settles O34: the sum of 12 and 8 bits does not wrap at 16. -/
theorem jumpPlusV0IsNotMasked : Obligations.JumpPlusV0IsNotMasked := by
  intro s nnn
  have hsum : (zextAddr nnn + zextByte (s.reg 0)).toNat = nnn.toNat + (s.reg 0).toNat := by
    have hnnn := nnn.isLt
    have hv0 := (s.reg 0).isLt
    rw [BitVec.toNat_add, toNat_zextAddr, toNat_zextByte]
    omega
  exact ⟨_, rfl, hsum, sameBut_setPc s _⟩

/-! ### CALL and RET (R130, R132) -/

/-- CALL with a free slot. -/
theorem exec_call_ok {s : State} (nnn : Addr12) (h : s.sp.val < 16) : exec (.call nnn) s =
    .next ((s.setStack (s.stack.set s.sp.val s.pc) ⟨s.sp.val + 1, by omega⟩).setPc (zextAddr nnn)) := by
  rw [exec_call, s.push_ok _ _ h]

/-- RET with an address held. -/
theorem exec_ret_ok {s : State} (h : s.sp.val ≠ 0) : exec .ret s =
    .next ((s.setStack s.stack ⟨s.sp.val - 1, by omega⟩).setPc (s.stack[s.sp.val - 1]'(by omega))) := by
  rw [exec_ret, s.pop_ok _ h]

theorem sameBut_setStack_setPc (s : State) (k : Vector Word 16) (sp : Fin 17) (w : Word) :
    SameBut [.pc, .stack] s ((s.setStack k sp).setPc w) :=
  ((sameBut_setStack s k sp).mono (by simp)).trans ((sameBut_setPc _ w).mono (by simp))

/-- Settles O35: a push of PC into the slot SP, then a write of PC. -/
theorem callPushesTheReturnAddress : Obligations.CallPushesTheReturnAddress := by
  intro s nnn h
  refine ⟨_, exec_call_ok nnn h, toNat_zextAddr nnn, rfl, ?_, fun k hk => ?_, sameBut_setStack_setPc s _ _ _⟩
  · simp [h]
  · simp [hk.symm]

/-- Settles O36: a pop, then a write of PC with the popped value; the slots are not written. -/
theorem returnPopsTheNewestAddress : Obligations.ReturnPopsTheNewestAddress := by
  intro s h
  refine ⟨_, exec_ret_ok (Nat.ne_of_gt h), ?_, Nat.sub_add_cancel h, rfl, sameBut_setStack_setPc s _ _ _⟩
  exact Vector.getElem?_eq_getElem _

/-- Settles O37: RET pops the address CALL pushed, from the slot it was pushed to. -/
theorem callThenReturnComesBack : Obligations.CallThenReturnComesBack := by
  intro s nnn h
  obtain ⟨t, ht, -, hsp, hslot, hslots, hframe⟩ := callPushesTheReturnAddress s nnn h
  obtain ⟨u, hu, hpc, hsp', hstack, hframe'⟩ := returnPopsTheNewestAddress t (by omega)
  have hpc : u.pc = s.pc := by
    rw [show t.sp.val - 1 = s.sp.val by omega, hslot] at hpc
    exact (Option.some.inj hpc).symm
  refine ⟨t, u, ht, hu, hpc, Fin.ext (by omega), fun k hk => hstack ▸ hslots k hk, fun p hp => ?_⟩
  by_cases hp' : p = .pc
  · exact hp' ▸ hpc
  · exact hframe.trans hframe' p (by simp_all)

/-! ### Skips (R133 to R136, R139) -/

/-- A skip moves PC by 2 exactly when its condition holds, and nothing else. -/
theorem skipIf_pc_sameBut {s : State} {c : Bool} {p : Prop} [Decidable p] (h : c = true ↔ p) :
    (s.skipIf c).pc = (if p then s.pc + 2 else s.pc) ∧ SameBut [.pc] s (s.skipIf c) := by
  rw [s.skipIf_eq c]
  exact ⟨if_congr h rfl rfl, sameBut_setPc s _⟩

/-- Settles O38: each is a skip on its comparison. -/
theorem skipsOnAnImmediate : Obligations.SkipsOnAnImmediate := by
  intro s x kk
  exact ⟨decodeWord_encode (.seImm x kk), decodeWord_encode (.sneImm x kk),
    ⟨_, rfl, skipIf_pc_sameBut beq_iff_eq⟩, ⟨_, rfl, skipIf_pc_sameBut bne_iff_ne⟩⟩

/-- Settles O39: each is a skip on its comparison. -/
theorem skipsOnARegister : Obligations.SkipsOnARegister := by
  intro s x y
  exact ⟨⟨_, rfl, skipIf_pc_sameBut beq_iff_eq⟩, ⟨_, rfl, skipIf_pc_sameBut bne_iff_ne⟩⟩

/-! ### Results without a flag (R151 to R156) -/

theorem onlyRegs_setReg (s : State) (x : Reg) (b : Byte) : OnlyRegs s (s.setReg x b) [x] :=
  ⟨sameRegsBut_setReg s x b, sameBut_setReg s x b⟩

/-- Settles O40: each is one register write, with no flag. -/
theorem movesAndImmediateAdd : Obligations.MovesAndImmediateAdd := by
  intro s x y kk
  refine ⟨decodeWord_encode (.ldImm x kk), decodeWord_encode (.addImm x kk), decodeWord_encode (.ldReg x y),
    ⟨_, exec_ldImm x kk s, s.reg_setReg_same x _, onlyRegs_setReg s x _⟩,
    ⟨_, rfl, ?_, onlyRegs_setReg s x _⟩,
    ⟨_, exec_ldReg x y s, s.reg_setReg_same x _, onlyRegs_setReg s x _⟩⟩
  rw [s.reg_setReg_same x, BitVec.toNat_add]

/-- Settles O41: each is one register write, with no flag. -/
theorem logicWritesNoFlag : Obligations.LogicWritesNoFlag := by
  intro s x y
  exact ⟨⟨_, rfl, s.reg_setReg_same x _, onlyRegs_setReg s x _⟩,
    ⟨_, rfl, s.reg_setReg_same x _, onlyRegs_setReg s x _⟩,
    ⟨_, rfl, s.reg_setReg_same x _, onlyRegs_setReg s x _⟩⟩

/-! ### Results with a flag (R157 to R161, R164) -/

/-- What a result and its flag leave: the flag in VF, the result in any other destination, all else unchanged. -/
theorem setResultFlag_spec (s : State) (x : Reg) (b : Byte) (flag : Bool) :
    (s.setResultFlag x b flag).reg 15 = flagByte flag ∧ (x ≠ 15 → (s.setResultFlag x b flag).reg x = b) ∧
      OnlyRegs s (s.setResultFlag x b flag) [x, 15] := by
  refine ⟨State.reg_setFlag _ flag, fun hx => ?_, fun y hy => ?_, sameBut_setResultFlag s x b flag⟩
  · have hx : flagReg ≠ x := Ne.symm hx
    simp [State.reg_setResultFlag, hx]
  · simp only [List.mem_cons, List.not_mem_nil, or_false, not_or] at hy
    have hyf : flagReg ≠ y := Ne.symm hy.2
    simp [State.reg_setResultFlag, hyf, Ne.symm hy.1]

theorem toNat_flagByte (b : Bool) : (flagByte b).toNat = b.toNat := by cases b <;> rfl

theorem flagByte_decide (p : Prop) [Decidable p] : flagByte (decide p) = if p then 1 else 0 := by
  simp [flagByte]

/-- Settles O42: the sum with its carry is a result and its flag. -/
theorem addSetsTheCarry : Obligations.AddSetsTheCarry := by
  intro s x y
  obtain ⟨hflag, hresult, honly⟩ := setResultFlag_spec s x (s.reg x + s.reg y) (carryOut (s.reg x) (s.reg y))
  refine ⟨_, rfl, hflag.trans (flagByte_decide _), fun hx => ?_, honly⟩
  rw [hresult hx, BitVec.toNat_add]

theorem toNat_sub_byte (a b : Byte) : (a - b).toNat = (a.toNat + 256 - b.toNat) % 256 := by
  have := b.isLt
  rw [BitVec.toNat_sub]
  omega

/-- A difference with its strict flag (R158, R159). -/
theorem difference_spec (s : State) (x : Reg) (a b : Byte) :
    (s.setResultFlag x (a - b) (notBorrow a b)).reg 15 = (if b.toNat < a.toNat then 1 else 0) ∧
      (x ≠ 15 → ((s.setResultFlag x (a - b) (notBorrow a b)).reg x).toNat =
        (a.toNat + 256 - b.toNat) % 256) ∧
      OnlyRegs s (s.setResultFlag x (a - b) (notBorrow a b)) [x, 15] := by
  obtain ⟨hflag, hresult, honly⟩ := setResultFlag_spec s x (a - b) (notBorrow a b)
  exact ⟨hflag.trans (flagByte_decide _), fun hx => (hresult hx).symm ▸ toNat_sub_byte a b, honly⟩

/-- Settles O43: both are a difference, with the operands in either order. -/
theorem subtractSetsTheStrictFlag : Obligations.SubtractSetsTheStrictFlag :=
  fun s x _ => ⟨⟨_, rfl, difference_spec s x _ _⟩, ⟨_, rfl, difference_spec s x _ _⟩⟩

theorem toNat_shiftedOutRight (a : Byte) : (shiftedOutRight a).toNat = a.toNat % 2 := by
  revert a; decide

theorem toNat_shiftedOutLeft (a : Byte) : (shiftedOutLeft a).toNat = a.toNat / 128 := by
  revert a; decide

/-- Settles O44: the shifted value with the bit shifted out is a result and its flag. -/
theorem shiftsKeepTheBitShiftedOut : Obligations.ShiftsKeepTheBitShiftedOut := by
  intro s x y
  constructor
  · obtain ⟨hflag, hresult, honly⟩ := setResultFlag_spec s x (s.reg x >>> 1) (shiftedOutRight (s.reg x))
    refine ⟨_, rfl, ?_, fun hx => ?_, honly⟩
    · rw [hflag, toNat_flagByte, toNat_shiftedOutRight]
    · rw [hresult hx, BitVec.toNat_ushiftRight, Nat.shiftRight_eq_div_pow]
  · obtain ⟨hflag, hresult, honly⟩ := setResultFlag_spec s x (s.reg x <<< 1) (shiftedOutLeft (s.reg x))
    refine ⟨_, rfl, ?_, fun hx => ?_, honly⟩
    · rw [hflag, toNat_flagByte, toNat_shiftedOutLeft]
    · rw [hresult hx, BitVec.toNat_shiftLeft, Nat.shiftLeft_eq]

end Sys2Proof.Machine
end

section
/-! PROOFS. The families of `42_index_memory.md` and `43_random.md`: I, the transfers through it, the generator. -/

namespace Sys2Proof.Machine

/-! ### The index register (R180 to R182) -/

/-- Settles O45: one write of I. -/
theorem loadIndexWritesTheAddress : Obligations.LoadIndexWritesTheAddress := by
  intro s nnn
  exact ⟨decodeWord_encode (.ldI nnn), _, rfl, toNat_zextAddr nnn, sameBut_setI s _⟩

theorem toNat_glyphAddress (b : Byte) : (glyphAddress b).toNat = b.toNat % 16 * 5 := by
  revert b; decide

/-- Settles O46: each is one write of I. -/
theorem indexArithmetic : Obligations.IndexArithmetic := by
  intro s x
  refine ⟨⟨_, rfl, ?_, sameBut_setI s _⟩, ⟨_, rfl, toNat_glyphAddress _, sameBut_setI s _⟩⟩
  rw [State.setI_i, BitVec.toNat_add, toNat_zextByte]

/-! ### LD B (R183) -/

/-- Settles O47: the three digits are one store, each digit below 256 and so kept whole by its byte. -/
theorem bcdStoresTheDigits : Obligations.BcdStoresTheDigits := by
  intro s x hs hin
  have hx := (s.reg x).isLt
  have hin : s.indexAddress + (bcdDigits (s.reg x)).length ≤ 4096 := hin
  have hbyte {k : Nat} {b : Byte} (hk : (bcdDigits (s.reg x))[k]? = some b) := State.byteAt_writeBytes hs hin hk
  have hdigit {d : Nat} (hd : d < 256) : (BitVec.ofNat 8 d).toNat = d := Nat.mod_eq_of_lt hd
  refine ⟨_, (s.reg x).toNat / 100, (s.reg x).toNat / 10 % 10, (s.reg x).toNat % 10,
    State.memWrite_inside hin, by omega, by omega, by omega, by omega, ?_, ?_, ?_,
    sameMemoryOutside_writeBytes s _ _, sameBut_setMem s _⟩
  · exact (congrArg _ (hbyte (k := 0) rfl)).trans (hdigit (by omega))
  · exact (congrArg _ (hbyte (k := 1) rfl)).trans (hdigit (by omega))
  · exact (congrArg _ (hbyte (k := 2) rfl)).trans (hdigit (by omega))

/-! ### LD Vx,[I] (R185) -/

theorem reg_setRegsFrom_readBytes (s : State) (a n : Nat) (y : Reg) :
    (s.setV (setRegsFrom s.v 0 (s.mem.readBytes a n))).reg y =
      if y.toNat < n then s.byteAt (a + y.toNat) else s.reg y := by
  rw [State.reg_setV_setRegsFrom]
  by_cases hy : y.toNat < n
  · have hread := Memory.getElem?_readBytes s.mem a hy
    rw [List.getElem?_eq_getElem (by simpa using hy)] at hread
    simpa [hy, State.byteAt] using hread
  · simp [hy]

/-- Settles O49: the registers up to x are written from the bytes read, the others are kept. -/
theorem bulkLoadReadsTheRange : Obligations.BulkLoadReadsTheRange := by
  intro s x hx
  have hok : accessOk s.indexAddress (x.toNat + 1) = true := accessOk_iff.2 (.inr hx)
  rw [exec_ldLoad, s.withRead_ok _ hok]
  refine ⟨_, rfl, fun k hk => ?_, fun y hy => ?_, sameBut_setV s _⟩
  · have hk16 : (BitVec.ofNat 4 k).toNat = k := Nat.mod_eq_of_lt (by have := x.isLt; omega)
    rw [reg_setRegsFrom_readBytes, hk16, if_pos (Nat.lt_succ_of_le hk)]
  · rw [reg_setRegsFrom_readBytes, if_neg (Nat.not_lt.2 (Nat.succ_le_of_lt hy))]

/-- Settles O50: the load reads the bytes the store left, at the same I. -/
theorem bulkStoreThenLoadRestores : Obligations.BulkStoreThenLoadRestores := by
  intro s x hs hx
  obtain ⟨t, ht, hstored, -, hframe⟩ := bulkStoreWritesTheRange s x hs hx
  refine ⟨t, ht, fun u hmem hi => ?_⟩
  have hti : t.i = s.i := hframe .i (by simp)
  have hindex : u.indexAddress = s.indexAddress := by rw [State.indexAddress, hi, hti, State.indexAddress]
  obtain ⟨w, hw, hloaded, habove, -⟩ := bulkLoadReadsTheRange u x (hindex ▸ hx)
  refine ⟨w, hw, fun k hk => ?_, habove⟩
  rw [hloaded k hk, hindex, State.byteAt, hmem]
  exact hstored k hk

/-! ### The generator (R200 to R205) -/

/-- Settles O32: a write of the generator, then one of the destination. -/
theorem rndMasksOneDraw : Obligations.RndMasksOneDraw := by
  intro s x kk
  refine ⟨_, rfl, State.reg_setReg_same _ x _, rfl, fun y hy => ?_, ?_⟩
  · exact sameRegsBut_setReg (s.setRng _) x _ y hy
  · exact ((sameBut_setRng s _).mono (by simp)).trans ((sameBut_setReg _ x _).mono (by simp))

theorem seedRng_getElem? (seed : Word32) (k : Nat) : (seedRng seed).q[k]? = (seedWords seed)[k]? := by
  rw [seedRng, Vector.getElem?_mk, List.getElem?_toArray]

/-- The recurrence of `seedTail_getElem?` for the whole table (R201). -/
theorem seedWords_getElem? (seed : Word32) {n : Nat} (hn : n < 4093) :
    ∃ a b, (seedWords seed)[n]? = some a ∧ (seedWords seed)[n + 1]? = some b ∧
      (seedWords seed)[n + 3]? = some (a ^^^ b ^^^ cmwcPhi ^^^ BitVec.ofNat 32 (n + 3)) := by
  have h := seedTail_getElem? seed (seed + cmwcPhi) (seed + cmwcPhi + cmwcPhi) 3 4093 n hn
  rwa [Nat.add_comm 3 n] at h

/-- Settles O30: the recurrence of `seedTail` read off the table. -/
theorem seedingFillsTheTable : Obligations.SeedingFillsTheTable := by
  intro seed
  simp only [seedRng_getElem?]
  refine ⟨rfl, rfl, rfl, fun k hk hk' => ?_, rfl, rfl⟩
  obtain ⟨n, rfl⟩ := Nat.exists_eq_add_of_le' hk
  obtain ⟨a, b, ha, hb, hw⟩ := seedWords_getElem? seed (show n < 4093 by omega)
  rw [Nat.add_sub_cancel, show n + 3 - 2 = n + 1 by omega]
  exact ⟨a, b, ha, hb, hw⟩

/-- Settles O31: the carry correction is exact division, and the reflection is its own inverse. -/
theorem drawDividesExactlyAndReflects : Obligations.DrawDividesExactlyAndReflects := by
  intro r r' word h
  obtain rfl : r.next.1 = r' := congrArg Prod.fst h
  obtain rfl : r.next.2 = word := congrArg Prod.snd h
  refine ⟨Fin.val_add r.i 1, ⟨_, Vector.getElem?_eq_getElem (r.i + 1).isLt, ?_⟩, ?_, fun k hk => ?_⟩
  · have hreflect : 0xFFFFFFFE - r.next.2 = (drawCarry (drawProduct r.q[(r.i + 1).val] r.c)).1 :=
      sub_sub_cancel cmwcReflect _
    rw [hreflect]
    exact drawCarry_exact _ _
  · exact Vector.getElem?_set_self (r.i + 1).isLt
  · exact Vector.getElem?_set_ne (r.i + 1).isLt hk.symm

end Sys2Proof.Machine
end

section
/-! PROOFS. The family of `44_display.md`: CLS, the sprite blitter, DRW (R221 to R226). -/

namespace Sys2Proof.Machine

/-- Settles O51: one write of the framebuffer. -/
theorem clearScreenTurnsEveryCellOff : Obligations.ClearScreenTurnsEveryCellOff :=
  ⟨decodeWord_encode .cls, fun s => ⟨_, rfl, Framebuffer.pixel_clear, sameBut_setFb s _⟩⟩

/-! ### The cells a sprite touches are those `drawSprite` flips -/

theorem touches_iff_mem_spriteCells {x y : Byte} {sprite : List Byte} {r : Fin 32} {c : Fin 64} :
    Touches x y sprite r c ↔ (r, c) ∈ spriteCells x.toNat y.toNat 0 sprite := by
  simp only [mem_spriteCells, Nat.zero_add, Touches]

theorem drawSprite_eq_blitCells (fb : Framebuffer) (x y : Byte) (sprite : List Byte) :
    fb.drawSprite x y sprite = blitCells (spriteCells x.toNat y.toNat 0 sprite) (fb, false) :=
  blitRows_eq_blitCells ..

/-- Settles O52: drawing is flipping the sprite's cells one after the other, and no cell is listed twice. -/
theorem drawSpriteFlipsTheTouchedCells : Obligations.DrawSpriteFlipsTheTouchedCells := by
  intro fb x y sprite hlen
  have hnodup := spriteCells_nodup x.toNat y.toNat 0 sprite (by omega)
  simp only [touches_iff_mem_spriteCells, drawSprite_eq_blitCells, pixel_blitCells hnodup,
    collision_blitCells hnodup]
  refine ⟨fun r c h => if_pos h, fun r c h => if_neg h, ?_⟩
  simp

/-- A byte that is not 0 has a set bit. -/
theorem exists_bit_of_ne_zero {b : Byte} (h : b ≠ 0) : ∃ i, i < 8 ∧ b.getLsbD (7 - i) = true := by
  revert b; decide

/-- A sprite touches some cell exactly when one of its bits is set. -/
theorem exists_touches_iff {x y : Byte} {sprite : List Byte} :
    (∃ r c, Touches x y sprite r c) ↔ ∃ b ∈ sprite, b ≠ 0 := by
  constructor
  · rintro ⟨r, c, j, i, b, hb, -, hbit, -⟩
    refine ⟨b, List.mem_of_getElem? hb, ?_⟩
    rintro rfl
    simp at hbit
  · rintro ⟨b, hb, hne⟩
    obtain ⟨j, hj⟩ := List.getElem?_of_mem hb
    obtain ⟨i, hi, hbit⟩ := exists_bit_of_ne_zero hne
    exact ⟨wrapRow y.toNat j, wrapColumn x.toNat i, j, i, b, hj, hi, hbit, rfl, rfl⟩

/-- Settles O54: the second draw flips back what the first flipped, and sees on what the first saw off. -/
theorem drawingTwiceRestores : Obligations.DrawingTwiceRestores := by
  intro fb x y sprite hlen
  obtain ⟨hflip, hkeep, -⟩ := drawSpriteFlipsTheTouchedCells fb x y sprite hlen
  obtain ⟨hflip', hkeep', hcollide'⟩ :=
    drawSpriteFlipsTheTouchedCells (fb.drawSprite x y sprite).1 x y sprite hlen
  have hsecond : ((fb.drawSprite x y sprite).1.drawSprite x y sprite).2 = true ↔
      ∃ r c, Touches x y sprite r c ∧ fb.pixel r c = false := by
    rw [hcollide']
    refine exists₂_congr fun r c => and_congr_right fun h => ?_
    rw [hflip r c h, Bool.not_eq_true']
  refine ⟨Framebuffer.ext_pixel fun r c => ?_, hsecond, fun hclear => ?_⟩
  · by_cases h : Touches x y sprite r c
    · rw [hflip' r c h, hflip r c h, Bool.not_not]
    · rw [hkeep' r c h, hkeep r c h]
  · subst hclear
    rw [hsecond, ← exists_touches_iff (x := x) (y := y)]
    simp only [Framebuffer.pixel_clear, and_true]

/-- Settles O53: the read succeeds, and drawing writes the framebuffer and then VF. -/
theorem drawReadsTheSpriteAndSetsTheFlag : Obligations.DrawReadsTheSpriteAndSetsTheFlag := by
  intro s x y n hn
  have hok : accessOk s.indexAddress n.toNat = true :=
    accessOk_iff.2 (hn.imp_left fun h => congrArg BitVec.toNat h)
  rw [exec_drw, s.withRead_ok _ hok]
  refine ⟨_, s.mem.readBytes s.indexAddress n.toNat, rfl, Memory.readBytes_length .., fun k hk => ?_, rfl, ?_,
    fun z hz => ?_, sameBut_draw s _ _ _⟩
  · exact Memory.getElem?_readBytes _ _ hk
  · exact State.reg_setFlag _ _
  · exact sameRegsBut_setReg (s.setFb _) flagReg _ z hz

end Sys2Proof.Machine
end

section
/-! PROOFS. The family of `45_keys_timers.md`: key skips, the key wait, the timers' transfers (R242 to R247). -/

namespace Sys2Proof.Machine

theorem State.withKey_ok (s : State) {index : Byte} (k : Bool → Result) (h : index.toNat ≤ 15) :
    s.withKey index k = k (s.isPressed index.toNat) := by
  simp [State.withKey, Nat.not_lt.2 h]

theorem State.withKey_fault (s : State) {index : Byte} (k : Bool → Result) (h : 15 < index.toNat) :
    s.withKey index k = .fault (.keyIndexOutOfRange index) := by
  simp [State.withKey, h, raise]

/-- Settles O55: a key index reads its key flag and skips on it; a larger value faults. -/
theorem keySkips : Obligations.KeySkips := by
  intro s x
  rw [exec_skp, exec_sknp]
  refine ⟨fun k hk => ?_, fun h => ⟨s.withKey_fault _ h, s.withKey_fault _ h⟩⟩
  have hle : (s.reg x).toNat ≤ 15 := by omega
  rw [s.withKey_ok _ hle, s.withKey_ok _ hle, hk, s.isPressed_val k]
  exact ⟨⟨_, rfl, skipIf_pc_sameBut Iff.rfl⟩, ⟨_, rfl, skipIf_pc_sameBut (by simp)⟩⟩

theorem firstPressedIndex_of_lowest {s : State} {k : Fin 16} (hk : s.keyIn k = true)
    (hlow : ∀ j : Fin 16, j < k → s.keyIn j = false) : s.firstPressedIndex = some k.val :=
  ((firstPressedIsTheLowest s).1 k.val).2 ⟨k.isLt, hk, hlow⟩

/-- Settles O57: `firstPressedIndex` is the lowest key held, or none; a waiting step takes back the prologue's PC advance. -/
theorem keyWaitTakesTheLowestKeyOrStays : Obligations.KeyWaitTakesTheLowestKeyOrStays := by
  intro s x
  refine ⟨fun k hk hlow => ?_, fun hnone => ⟨?_, fun hf hin hd => ?_⟩⟩
  · refine ⟨_, exec_ldVxK_some x s (firstPressedIndex_of_lowest hk hlow), ?_, onlyRegs_setReg s x _⟩
    rw [s.reg_setReg_same x]
    exact Nat.mod_eq_of_lt (by omega)
  · exact ⟨_, exec_ldVxK_none x s ((firstPressedIsTheLowest s).2.2 hnone), rfl, sameBut_setPc s _⟩
  · have hpc : s.prologue.pc - 2 = s.pc := BitVec.add_sub_cancel _ _
    refine ⟨_, (step_exec hf hin hd).trans (exec_ldVxK_none x _ ((firstPressedIsTheLowest s.prologue).2.2 hnone)),
      hpc, fun p hp => ?_⟩
    by_cases hp' : p = .pc
    · exact hp' ▸ hpc
    · exact (sameBut_prologue s p (by simp_all)).trans (sameBut_setPc _ _ p (by simpa using hp'))

/-- Settles O58: the execute phase of a step reads the timer the prologue left. -/
theorem delayTimerIsReadAfterTheDecrement : Obligations.DelayTimerIsReadAfterTheDecrement := by
  intro s x
  refine ⟨decodeWord_encode (.ldVxDt x), ⟨_, rfl, s.reg_setReg_same x _, onlyRegs_setReg s x _⟩,
    fun hf hpc hd => ⟨_, step_exec hf hpc hd, ?_, sameRegsBut_setReg s.prologue x _⟩⟩
  rw [State.reg_setReg_same, State.prologue_dt, decay_toNat]

/-- Settles O59: each is one write of a timer. -/
theorem timersAreSetFromARegister : Obligations.TimersAreSetFromARegister := by
  intro s x
  refine ⟨⟨_, rfl, rfl, sameBut_setDt s _⟩, ⟨_, rfl, rfl, ?_, sameBut_setSt s _⟩⟩
  simp [State.toneRequested, BitVec.lt_def]

end Sys2Proof.Machine
end

section
/-! PROOFS. The family of `70_reset_and_hazards.md`: construction, reset, and the word placed for the next fetch. -/

namespace Sys2Proof.Machine

theorem font_length : font.length = 80 := rfl

/-- Settles O27: memory after `new()` lists no cell, so it reads as its reset contents. -/
theorem constructionValues : Obligations.ConstructionValues := by
  have hmem (a : Nat) : State.reset.byteAt a = font.getD a 0 := rfl
  refine ⟨fun a ha => ?_, fun a ha => ?_, fun x => Vector.getElem_replicate x.isLt, rfl, rfl, fun k hk => ?_,
    rfl, rfl, rfl, Framebuffer.pixel_clear, fun k => Vector.getElem_replicate k.isLt, rfl, rfl⟩
  · have hlt : a < font.length := font_length ▸ ha
    rw [hmem, List.getD_eq_getElem _ _ hlt, List.getElem?_eq_getElem hlt]
  · rw [hmem, List.getD_eq_default _ _ (font_length ▸ ha)]
  · exact Vector.getElem?_replicate.trans (if_pos hk)

/-- Settles O28: part by part. -/
theorem hostResetKeepsOnlyTheKeys : Obligations.HostResetKeepsOnlyTheKeys := by
  intro s
  refine ⟨fun p hp => ?_, rfl, rfl⟩
  cases p with
  | keys => exact absurd List.mem_cons_self hp
  | v | mem => exact fun _ => rfl
  | stack => exact ⟨rfl, rfl⟩
  | _ => rfl

/-! ### The word placed by `withFetchWord` (log entries 13 and 14) -/

theorem decodeWord_of_decodeTableWord {w : Nat} {i : Instr} (h : decodeTableWord 16 w = some i) :
    decodeWord (tableWord 16 w) = some i := by
  simp only [decodeTableWord, decode, wordOfBytes_bytes] at h
  cases hd : decodeWord (tableWord 16 w) with
  | none => simp [hd] at h
  | some j => simpa [hd] using h

theorem State.fetchPlace_inside (s : State) : s.fetchPlace.toNat + 2 ≤ 4096 := by
  unfold State.fetchPlace
  split
  · assumption
  · decide

theorem State.fetchPlace_of_inside {s : State} (h : s.pc.toNat + 1 < 4096) : s.fetchPlace = s.pc := if_pos h

theorem sameBut_placeWord (s : State) (w : Word) : SameBut [.pc, .mem, .fault] s (s.placeWord w) := by
  intro p hp
  cases p with
  | pc | mem | fault => simp at hp
  | v => exact fun _ => rfl
  | stack => exact ⟨rfl, rfl⟩
  | _ => rfl

/-- The word placed is the one at PC. -/
theorem State.wordAtPc_placeWord {s : State} (hs : s.Inv) (w : Word) : (s.placeWord w).wordAtPc = w := by
  have hbyte {k : Nat} {b : Byte} (hk : [highByte w, lowByte w][k]? = some b) :
      (s.placeWord w).byteAt (s.fetchPlace.toNat + k) = b :=
    State.byteAt_writeBytes hs s.fetchPlace_inside hk
  have hhigh := hbyte (k := 0) rfl
  have hlow := hbyte (k := 1) rfl
  calc (s.placeWord w).wordAtPc = highByte w ++ lowByte w := congrArg₂ (· ++ ·) hhigh hlow
    _ = w := wordOfBytes_bytes w

/-- Settles O7: the bytes stored at the place of the next fetch are the word's, and no fault is latched there. -/
theorem placedWordRunsNext : Obligations.PlacedWordRunsNext := by
  intro s w i hs hw
  let p := s.placeWord (tableWord 16 w)
  have hword : decodeWord p.wordAtPc = some i := by
    rw [State.wordAtPc_placeWord hs, decodeWord_of_decodeTableWord hw]
  have hframe : SameBut [.pc, .mem, .dt, .st, .fault] s p.prologue :=
    ((sameBut_placeWord s _).mono (by simp)).trans ((sameBut_prologue p).mono (by simp))
  refine ⟨p.prologue, step_exec rfl s.fetchPlace_inside hword, hframe, fun hin => ?_⟩
  have hplace := State.fetchPlace_of_inside hin
  exact ⟨fun b hb => s.mem.read_writeBytes_outside (hplace.symm ▸ hb), congrArg (· + 2) hplace⟩

end Sys2Proof.Machine
end
